-- ==== Sys2Proof/Word.lean ====
section
/-! DEFINITION. The words of the block (00_scope.md section 6): bytes and channels, binary32 bit patterns, wire words, and the
logical Color of R16. A bit of a frame and a level of the line are Bool (true is 1, high). -/
namespace Sys2Proof

/-- One byte of the command port's operand stream (log 3). -/
abbrev Byte := BitVec 8

/-- "three 8-bit unsigned channels" (R16). -/
abbrev Channel := BitVec 8

/-- The command side's 32-bit unsigned values: led_count (R11). -/
abbrev U32 := BitVec 32

/-- An IEEE 754 binary32 bit pattern (R13, R71: a brightness operand is any pattern). -/
abbrev F32 := BitVec 32

/-- A wire word `G<<16 | R<<8 | B` (R61). -/
abbrev WireWord := BitVec 24

/-- The opaque pin identifier of R12: uninterpreted data, written as a number (log 19). -/
abbrev PinId := Nat

/-- A logical colour (R16): channels in (r, g, b) order, never in wire order. -/
structure Color where
  r : Channel
  g : Channel
  b : Channel
deriving DecidableEq, Repr

end Sys2Proof
end

