-- ==== Sys2Proof/Config.lean ====
section
/-! DEFINITION. What an implementation fixes (R7, R14, R28): the build constants and the open parameters of the step relation, as one
record of plain data. A state carries its build and no step writes it (log 1), so a statement about every state is a statement about
every build. `Build.reference` is the build of the spec's test vectors. -/
namespace Sys2Proof

/-- ScaleFn of a build (R7, D8): one binary32 rounding before the floor, the default; the floor of the exact real product, "the other
reading" of R93; or any other function that R94 (a), (b), (c) and (f) admit (U1, log 6). -/
inductive ScaleReading where
  | binary32
  | exact
  | free
deriving DecidableEq, Repr

/-- What a ScaleFn other than the two readings gives where R94 (a), (b), (c) and (f) leave it open: a free value (log 6). -/
opaque freeScale : Channel → F32 → Channel

/-- The build constants and open parameters (R7, R14; "Open parameters, collected" in 92_eei_decisions.md). -/
structure Build where
  /-- T1, in ticks (R14). -/
  t1 : Nat
  /-- T2, in ticks (R14). -/
  t2 : Nat
  /-- T3, in ticks (R14). -/
  t3 : Nat
  /-- TICK, the duration of one tick, in picoseconds (R7, R14; the unit is log 15). -/
  tickPs : Nat
  /-- RESET_TICKS (R14). -/
  resetTicks : Nat
  /-- BRT_DEFAULT (R7, D10). -/
  brtDefault : F32
  /-- ScaleFn (R7, D8). -/
  scaleFn : ScaleReading
  /-- PB_INIT as a finite table over the default BLACK (R7, D12). -/
  pbInit : List (Nat × Color)
deriving DecidableEq, Repr

/-- TB = T1 + T2 + T3, the bit period in ticks (R14). -/
def Build.tb (b : Build) : Nat := b.t1 + b.t2 + b.t3

/-- The reference build: T1:T2:T3 = 2:5:3, TICK = 125 ns, RESET_TICKS = 80000 (R14); BRT_DEFAULT = 0.2, the value R7 suggests;
ScaleFn the binary32 reading; PB_INIT BLACK everywhere. -/
def Build.reference : Build where
  t1 := 2
  t2 := 5
  t3 := 3
  tickPs := 125000
  resetTicks := 80000
  brtDefault := 0x3E4CCCCD#32
  scaleFn := .binary32
  pbInit := []

/-- 10 ms in picoseconds: the bound of R14, RESET_TICKS x TICK >= 10 ms. -/
def lowHoldPs : Nat := 10000000000

/-- "led_count: u32 (default 16)" (R11, R74). -/
def defaultLedCount : U32 := 16#32

/-- "output_pin: pin_id (default 6)" (R12, R74). -/
def defaultOutputPin : PinId := 6

/-- "input_pin: pin_id (default 7)" (R15): the host's, never held by the block. -/
def defaultInputPin : PinId := 7

end Sys2Proof
end

