-- ==== Sys2Proof/Syntax.lean ====
section
/-! DEFINITION. The instructions: one constructor per row of spec/opcode_table.json. R8 reads "instruction" as a command, the internal
operation SEND, or a wire pattern. -/
namespace Sys2Proof

/-- The block's instructions (R8, R61, R63, R70). Operands are the typed operands of R70 and R71, legal or not: an illegal value has a
defined effect (R72). -/
inductive Instr where
  /-- CONFIGURE(led_count, output_pin, brightness) (R80); `none` is an omitted option, which takes its default (R74). -/
  | configure (ledCount : Option U32) (outputPin : Option PinId) (brightness : Option F32)
  /-- SET(index, color) (R130); the index is any integer (R71). -/
  | set (index : Int) (color : Color)
  /-- GET(index) (R131). -/
  | get (index : Int)
  /-- FILL(color) (R132). -/
  | fill (color : Color)
  /-- CLEAR() (R133). -/
  | clear
  /-- FLUSH() (R96). -/
  | flush
  /-- ENCODE(buffer, brightness) (R95); any length, any bit pattern (R71). -/
  | encode (buffer : List Color) (brightness : F32)
  /-- SEND(bits) (R111), the block's internal operation; its timing operand is the build's (R113). -/
  | send (bits : List Bool)
  /-- WORD24: one scaled pixel on the wire (R61). -/
  | word24 (word : WireWord)
  /-- SYM0: the symbol of a 0 bit (R63). -/
  | sym0
  /-- SYM1: the symbol of a 1 bit (R63). -/
  | sym1
  /-- RESET: the low-hold that ends a frame (R63). -/
  | reset
deriving DecidableEq, Repr

end Sys2Proof
end

