-- ==== Sys2Proof/WellFormed.lean ====
section
/-! DEFINITION. What is well formed: the format an instruction is written in (R60), and the builds the spec admits (R7, R14, R113).
Operand values are never ill formed: every one is legal syntax with a defined effect (R71, R72). -/
namespace Sys2Proof

/-- The formats of R60 an instruction is written in. FRAME is not an instruction: it is a sequence of symbols and the low-hold (R64). -/
inductive Format where
  | cmd
  | word24
  | symbol
deriving DecidableEq, Repr

/-- The format of each row (R60, opcode_table.json). -/
def Instr.format : Instr → Format
  | .configure _ _ _ => .cmd
  | .set _ _ => .cmd
  | .get _ => .cmd
  | .fill _ => .cmd
  | .clear => .cmd
  | .flush => .cmd
  | .encode _ _ => .cmd
  | .send _ => .cmd
  | .word24 _ => .word24
  | .sym0 => .symbol
  | .sym1 => .symbol
  | .reset => .symbol

/-- An instruction is well formed on an interface when it is written in that interface's format: commands on `cmd`, wire patterns on the
line (R60, R72). -/
def Instr.wellFormed (f : Format) (i : Instr) : Bool := i.format = f

/-- The builds R7, R14 and R113 admit: T1, T2, T3 at least 1; RESET_TICKS x TICK >= 10 ms; BRT_DEFAULT in [0.2, 1.0] (as bit patterns of
binary32, which order the positive values). PB_INIT and ScaleFn are unconstrained within their types. -/
def Build.legal (b : Build) : Bool :=
  1 ≤ b.t1 && 1 ≤ b.t2 && 1 ≤ b.t3 && lowHoldPs ≤ b.resetTicks * b.tickPs &&
    0x3E4CCCCD ≤ b.brtDefault.toNat && b.brtDefault.toNat ≤ 0x3F800000

end Sys2Proof
end

