-- ==== Sys2Proof/Decode.lean ====
section
/-! DEFINITION. Encodings (30_encoding.md): symbols and frames on the wire, the 24-bit word's bits, the command tags, and the reader of a
DOUT trace (R65); then the encoder, and the table words the host asks about. The tags are R70's; the bytes that carry the typed operands
after the tag are the model's own (D3, log 3). -/
namespace Sys2Proof

/-! ## The wire side -/

/-- `high_len(v)` (R110). -/
def highLen (b : Build) : Bool → Nat
  | true => b.t1 + b.t2
  | false => b.t1

/-- `low_len(v)` (R110). -/
def lowLen (b : Build) : Bool → Nat
  | true => b.t3
  | false => b.t2 + b.t3

/-- `sym(v) = 1^high_len(v) ++ 0^low_len(v)` (R63, R110). -/
def sym (b : Build) (v : Bool) : List Bool :=
  List.replicate (highLen b v) true ++ List.replicate (lowLen b v) false

/-- The symbols of a bit sequence, with no gap between them (R64, R112). -/
def symbols (b : Build) (bits : List Bool) : List Bool := bits.flatMap (sym b)

/-- The waveform of one transmission: the symbols, then the low-hold (R64, R112). -/
def frameWave (b : Build) (bits : List Bool) : List Bool :=
  symbols b bits ++ List.replicate b.resetTicks false

/-- `bits24(w) = [w[23], w[22], .. , w[0]]` (R40, R97). -/
def bits24 (w : WireWord) : List Bool := (List.range 24).map fun k => w.getLsbD (23 - k)

/-- The number whose bits, most significant first, are `bits`. -/
def natOfBits (bits : List Bool) : Nat := bits.foldl (fun acc v => 2 * acc + v.toNat) 0

/-- The wire word whose bits, first sent first, are `bits` (R40). -/
def wordOfBits (bits : List Bool) : WireWord := BitVec.ofNat 24 (natOfBits bits)

/-- The bit a high run stands for: T1 + T2 ticks is a 1, T1 ticks is a 0, no other length occurs (R65). -/
def bitOfHighRun (b : Build) (high : Nat) : Option Bool :=
  if high = b.t1 + b.t2 then some true else if high = b.t1 then some false else none

/-- Reads the bits of one frame from the line (R65). `high` and `low` count the ticks of the run under way; a falling edge yields the bit
of the high run before it, and a low run of RESET_TICKS ends the frame. `none`: the trace ends first, or holds a run that does not occur. -/
def readFrame (b : Build) (high low : Nat) : List Bool → Option (List Bool)
  | [] => none
  | true :: rest => readFrame b (high + 1) 0 rest
  | false :: rest =>
    if high = 0 then
      if b.resetTicks ≤ low + 1 then some [] else readFrame b 0 (low + 1) rest
    else
      match bitOfHighRun b high with
      | none => none
      | some v =>
        if b.resetTicks ≤ 1 then some [v] else (readFrame b 0 1 rest).map (v :: ·)

/-! ## The command side -/

/-- Why bytes are no command: the decoder's rejections, by name. -/
inductive DecodeError where
  /-- The bytes end before the command does. -/
  | truncated
  /-- A header bit that no form of the command uses is set. -/
  | reservedBits
  /-- A number is not written in its shortest form. -/
  | overlong
  /-- A bit operand's byte is neither 0 nor 1. -/
  | badBit
  /-- Bytes are left over after the command. -/
  | trailing
  /-- The levels are no symbol and no low-hold. -/
  | unknownPattern
deriving DecidableEq, Repr

/-- The forms of code an instruction comes in (R60): command bytes, a 24-bit word, or levels of the line. -/
inductive Code where
  | cmd (bytes : List Byte)
  | word (word : WireWord)
  | levels (levels : List Bool)
deriving DecidableEq, Repr

/-- A natural number in base 128, least significant digit first, the high bit of a byte marking that more follow (log 3). -/
def readNat : List Byte → Except DecodeError (Nat × List Byte)
  | [] => .error .truncated
  | x :: xs =>
    if x.toNat < 128 then .ok (x.toNat, xs)
    else
      match readNat xs with
      | .error e => .error e
      | .ok (n, ys) => if n = 0 then .error .overlong else .ok (x.toNat - 128 + 128 * n, ys)

/-- The integer a number stands for: 0, -1, 1, -2, 2, .. (log 3). An index is any integer (R71). -/
def intOfNat (n : Nat) : Int := if n % 2 = 0 then Int.ofNat (n / 2) else Int.negSucc (n / 2)

/-- An integer operand. -/
def readInt (bs : List Byte) : Except DecodeError (Int × List Byte) :=
  match readNat bs with
  | .error e => .error e
  | .ok (n, rest) => .ok (intOfNat n, rest)

/-- A 32-bit operand, least significant byte first (log 3). -/
def readU32 : List Byte → Except DecodeError (BitVec 32 × List Byte)
  | x0 :: x1 :: x2 :: x3 :: rest => .ok (x3 ++ x2 ++ x1 ++ x0, rest)
  | _ => .error .truncated

/-- A Color operand: r, g, b, in logical order (R71). -/
def readColor : List Byte → Except DecodeError (Color × List Byte)
  | r :: g :: b :: rest => .ok (⟨r, g, b⟩, rest)
  | _ => .error .truncated

/-- `n` Colors: the buffer operand (R71). -/
def readColors : Nat → List Byte → Except DecodeError (List Color × List Byte)
  | 0, bs => .ok ([], bs)
  | n + 1, bs =>
    match readColor bs with
    | .error e => .error e
    | .ok (c, rest) =>
      match readColors n rest with
      | .error e => .error e
      | .ok (cs, rest') => .ok (c :: cs, rest')

/-- One bit operand, a byte 0 or 1 (log 3). -/
def readBit : List Byte → Except DecodeError (Bool × List Byte)
  | [] => .error .truncated
  | x :: rest => if x = 0#8 then .ok (false, rest) else if x = 1#8 then .ok (true, rest) else .error .badBit

/-- `n` bits: the operand of SEND (R71). -/
def readBits : Nat → List Byte → Except DecodeError (List Bool × List Byte)
  | 0, bs => .ok ([], bs)
  | n + 1, bs =>
    match readBit bs with
    | .error e => .error e
    | .ok (v, rest) =>
      match readBits n rest with
      | .error e => .error e
      | .ok (vs, rest') => .ok (v :: vs, rest')

/-- An operand that is there only if its presence bit is set: an omitted CONFIGURE option (R74). -/
def readOption {α : Type} (present : Bool) (read : List Byte → Except DecodeError (α × List Byte)) (bs : List Byte) :
    Except DecodeError (Option α × List Byte) :=
  if present then
    match read bs with
    | .error e => .error e
    | .ok (x, rest) => .ok (some x, rest)
  else .ok (none, bs)

/-- The operands of CONFIGURE, each preceded by nothing: `flags` bit 0, 1, 2 say which of the three are given. -/
def readConfigure (flags : Nat) (bs : List Byte) : Except DecodeError (Instr × List Byte) := do
  let (n, bs) ← readOption (flags.testBit 0) readU32 bs
  let (pin, bs) ← readOption (flags.testBit 1) readNat bs
  let (brt, bs) ← readOption (flags.testBit 2) readU32 bs
  return (.configure n pin brt, bs)

/-- The operands of the command with tag `tag` other than CONFIGURE (R70). -/
def readOperands (tag : Nat) (bs : List Byte) : Except DecodeError (Instr × List Byte) :=
  match tag with
  | 1 => do
    let (index, bs) ← readInt bs
    let (color, bs) ← readColor bs
    return (.set index color, bs)
  | 2 => do
    let (index, bs) ← readInt bs
    return (.get index, bs)
  | 3 => do
    let (color, bs) ← readColor bs
    return (.fill color, bs)
  | 4 => .ok (.clear, bs)
  | 5 => .ok (.flush, bs)
  | 6 => do
    let (n, bs) ← readNat bs
    let (buffer, bs) ← readColors n bs
    let (brt, bs) ← readU32 bs
    return (.encode buffer brt, bs)
  | _ => do
    let (n, bs) ← readNat bs
    let (bits, bs) ← readBits n bs
    return (.send bits, bs)

/-- One command from the front of a byte stream, with the bytes after it. Bits 2:0 of the first byte are the tag (R70); bits 5:3 say which
options a CONFIGURE gives (log 3); every other header bit is 0. -/
def readCommand : List Byte → Except DecodeError (Instr × List Byte)
  | [] => .error .truncated
  | header :: rest =>
    let tag := header.toNat % 8
    let flags := header.toNat / 8
    if tag = 0 then
      if flags < 8 then readConfigure flags rest else .error .reservedBits
    else
      if flags = 0 then readOperands tag rest else .error .reservedBits

/-- The command that the bytes on the `cmd` port are, whole. Total on any bytes. -/
def decodeCommand (bytes : List Byte) : Except DecodeError Instr :=
  match readCommand bytes with
  | .error e => .error e
  | .ok (i, []) => .ok i
  | .ok (_, _ :: _) => .error .trailing

/-- The wire pattern that levels of the line are (R63): a symbol, or a low-hold of RESET_TICKS low ticks or more. -/
def decodeLevels (b : Build) (levels : List Bool) : Except DecodeError Instr :=
  if levels = sym b true then .ok .sym1
  else if levels = sym b false then .ok .sym0
  else if levels.all (! ·) && b.resetTicks ≤ levels.length then .ok .reset
  else .error .unknownPattern

/-- The decoder: total on every code of every format. Every 24-bit word is legal (R61, R72). -/
def decode (b : Build) : Code → Except DecodeError Instr
  | .cmd bytes => decodeCommand bytes
  | .word w => .ok (.word24 w)
  | .levels levels => decodeLevels b levels

/-! ## The encoder -/

/-- The 3-bit tag of a command (R70); a wire pattern has none. -/
def Instr.tag : Instr → Option (BitVec 3)
  | .configure _ _ _ => some 0b000#3
  | .set _ _ => some 0b001#3
  | .get _ => some 0b010#3
  | .fill _ => some 0b011#3
  | .clear => some 0b100#3
  | .flush => some 0b101#3
  | .encode _ _ => some 0b110#3
  | .send _ => some 0b111#3
  | .word24 _ => none
  | .sym0 => none
  | .sym1 => none
  | .reset => none

/-- `writeNat` with fuel: the digits of `n` in base 128, least significant first. -/
def writeDigits : Nat → Nat → List Byte
  | 0, n => [BitVec.ofNat 8 n]
  | fuel + 1, n =>
    if n < 128 then [BitVec.ofNat 8 n] else BitVec.ofNat 8 (n % 128 + 128) :: writeDigits fuel (n / 128)

/-- A natural number in base 128; `n` itself is fuel enough. -/
def writeNat (n : Nat) : List Byte := writeDigits n n

/-- The number an integer is written as. -/
def natOfInt : Int → Nat
  | .ofNat n => 2 * n
  | .negSucc n => 2 * n + 1

/-- A 32-bit operand, least significant byte first. -/
def writeU32 (x : BitVec 32) : List Byte :=
  [x.extractLsb' 0 8, x.extractLsb' 8 8, x.extractLsb' 16 8, x.extractLsb' 24 8]

/-- A Color operand. -/
def writeColor (c : Color) : List Byte := [c.r, c.g, c.b]

/-- One bit operand. -/
def writeBit (v : Bool) : Byte := if v then 1#8 else 0#8

/-- An operand that may be omitted. -/
def writeOption {α : Type} (write : α → List Byte) : Option α → List Byte
  | none => []
  | some x => write x

/-- CONFIGURE's header: the tag 000 and one presence bit per option. -/
def configureHeader (n : Option U32) (pin : Option PinId) (brt : Option F32) : Byte :=
  BitVec.ofNat 8 (8 * n.isSome.toNat + 16 * pin.isSome.toNat + 32 * brt.isSome.toNat)

/-- The bytes of a command; a wire pattern has none. -/
def encodeCommand : Instr → List Byte
  | .configure n pin brt =>
    configureHeader n pin brt :: (writeOption writeU32 n ++ writeOption writeNat pin ++ writeOption writeU32 brt)
  | .set index color => 1#8 :: (writeNat (natOfInt index) ++ writeColor color)
  | .get index => 2#8 :: writeNat (natOfInt index)
  | .fill color => 3#8 :: writeColor color
  | .clear => [4#8]
  | .flush => [5#8]
  | .encode buffer brt => 6#8 :: (writeNat buffer.length ++ buffer.flatMap writeColor ++ writeU32 brt)
  | .send bits => 7#8 :: (writeNat bits.length ++ bits.map writeBit)
  | .word24 _ => []
  | .sym0 => []
  | .sym1 => []
  | .reset => []

/-- The code of an instruction: command bytes, a word, or the levels of R63 (RESET as its shortest pattern, RESET_TICKS low ticks). -/
def encode (b : Build) : Instr → Code
  | .configure n pin brt => .cmd (encodeCommand (.configure n pin brt))
  | .set index color => .cmd (encodeCommand (.set index color))
  | .get index => .cmd (encodeCommand (.get index))
  | .fill color => .cmd (encodeCommand (.fill color))
  | .clear => .cmd (encodeCommand .clear)
  | .flush => .cmd (encodeCommand .flush)
  | .encode buffer brt => .cmd (encodeCommand (.encode buffer brt))
  | .send bits => .cmd (encodeCommand (.send bits))
  | .word24 w => .word w
  | .sym0 => .levels (sym b false)
  | .sym1 => .levels (sym b true)
  | .reset => .levels (List.replicate b.resetTicks false)

/-! ## Table words -/

/-- `w` in `k` bytes, the byte of bits 7..0 first. -/
def bytesOfWord (k w : Nat) : List Byte := (List.range k).map fun j => BitVec.ofNat 8 (w / 256 ^ j)

/-- The `n` low bits of `w`, most significant first: a level pattern as the table writes it, first tick leftmost. -/
def levelsOfWord (n w : Nat) : List Bool := (List.range n).map fun k => w.testBit (n - 1 - k)

/-- The bytes of the command whose first bits are `w`, the operand bytes after them zero: as many zeros as the command takes. -/
def tableCommand (nbits w : Nat) : List Byte :=
  let bytes := bytesOfWord ((nbits + 7) / 8) w ++ List.replicate 16 0#8
  match readCommand bytes with
  | .ok (_, rest) => bytes.take (bytes.length - rest.length)
  | .error _ => bytes

/-- What a table row of `nbits` bits is read as (log 24): 24 bits are a WORD24, 10 bits (16 in whole bytes) a symbol pattern at the
reference ratio, the single bit 0 the level RESET repeats, anything else a command's first bytes. -/
def decodeTableWord (nbits w : Nat) : Option Instr :=
  if nbits = 24 then some (.word24 (BitVec.ofNat 24 w))
  else if nbits = 1 then if w = 0 then some .reset else none
  else if nbits = 10 ∨ nbits = 16 then
    if w < 1024 then
      match decodeLevels .reference (levelsOfWord 10 w) with
      | .ok i => some i
      | .error _ => none
    else none
  else
    match decodeCommand (tableCommand nbits w) with
    | .ok i => some i
    | .error _ => none

end Sys2Proof
end

