-- ==== Sys2Proof/Machine/State.lean ====
section
/-! DEFINITION. The state of the block and of the agents around it, as plain data (10_state.md; 70_reset_and_hazards.md R201), the error
kinds and responses (R170), why a run can stop, and the machine right after reset (R29). -/
namespace Sys2Proof.Machine

/-- PHASE (R20). -/
inductive Phase where
  | idle
  | shift
  | latch
deriving DecidableEq, Repr

/-- The sequencer tuple (PHASE, TXQ, TCK, HOLD), the block's "program counter" (R20). -/
structure Sequencer where
  /-- PHASE. -/
  phase : Phase
  /-- TXQ, head first: the bits not yet completely transmitted. -/
  txq : List Bool
  /-- TCK: ticks of the head bit's symbol already emitted. -/
  tck : Nat
  /-- HOLD: low-hold ticks still to emit. -/
  hold : Nat
deriving DecidableEq, Repr

/-- The PixelBuffer as pairs of index and Color: strictly rising indices, no pair equal to what its index reads as unlisted, PB_INIT
(R18, log 7). The block's only memory (R27, R49). -/
abbrev Memory := List (Nat × Color)

/-- What a constructed strip has (R10, R80): CFG.N, CFG.OUT_PIN, CFG.BRT and the PixelBuffer. -/
structure Strip where
  /-- CFG.N (R11). -/
  ledCount : U32
  /-- CFG.OUT_PIN (R12): no rule reads it. -/
  outputPin : PinId
  /-- CFG.BRT (R13). -/
  brightness : F32
  /-- PB (R16). -/
  pb : Memory
deriving DecidableEq, Repr

/-- LIFE (R10). CFG and PB exist only while READY: before CONFIGURE, CFG "hold[s] no value" and PB "does not exist" (R29, log 5). -/
inductive Life where
  | unconfigured
  | ready (strip : Strip)
deriving DecidableEq, Repr

/-- The causes of a ConfigurationError with the recorded value (R170). -/
inductive ConfigurationCause where
  | ledCount (value : U32)
  | brightness (pattern : F32)
  | length (bufferLength : Nat) (ledCount : U32)
deriving DecidableEq, Repr

/-- The causes of a HardwareError (R170). -/
inductive HardwareCause where
  | busy
  | unavailable
deriving DecidableEq, Repr

/-- The three error kinds (R170). -/
inductive BlockError where
  | configuration (cause : ConfigurationCause)
  | hardware (cause : HardwareCause)
  | indexOutOfRange (index : Int)
deriving DecidableEq, Repr

/-- What the `rsp` port carries (R201): OK, the Color of a GET, or an error. -/
inductive Response where
  | ok
  | color (color : Color)
  | error (error : BlockError)
deriving DecidableEq, Repr

/-- Who issues the command on `cmd`: the one host (R52), a second concurrent host, refused (R181 (d)), or the block's own front end, whose one
command is SEND (R70, R111). -/
inductive Issuer where
  | host
  | secondHost
  | frontEnd
deriving DecidableEq, Repr

/-- How far a `wire` move lets the sequencer run (log 12): to the end of the pattern under way, or of the wire word at its position. -/
inductive WireUnit where
  | pattern
  | word
deriving DecidableEq, Repr

/-- One move of an agent (R8, log 2). -/
inductive Move where
  /-- A command on the `cmd` port, as bytes, taken at a tick boundary and occupying no ticks (R47, R201). -/
  | command (issuer : Issuer) (bytes : List Byte)
  /-- `WAIT(n)`: the host issues nothing for n ticks (R74). -/
  | wait (ticks : Nat)
  /-- `WAIT_IDLE`: the host issues nothing until BUSY = 0 (R74). -/
  | waitIdle
  /-- The host issues nothing until the sequencer has run one wire pattern or word to its end (log 12). -/
  | wire (unit : WireUnit)
  /-- The environment drives `periph_avail` (R201, D19). -/
  | periphAvail (available : Bool)
  /-- The platform resets the block (R200). -/
  | reset
deriving DecidableEq, Repr

/-- There is no fault. "stuck does not occur", "hang does not occur", and an error is a normal outcome of a command (R182), so no meaning
raises one (log 26). -/
inductive Fault
deriving DecidableEq, Repr

/-- Why a run stops: a refusal is a command the block gives no meaning (R181). Each is safe: the model goes no further and no claim holds of
such a run. -/
inductive Refusal where
  /-- Raised by `exec` for an instruction without a meaning. No arm does: every instruction has one. Safe. -/
  | notModelled (mnemonic : String)
  /-- Raised by every command but CONFIGURE while LIFE = UNCONFIGURED (R181 (a)). Safe. -/
  | unconfigured
  /-- Raised by CONFIGURE while LIFE = READY (R181 (b)). Safe. -/
  | alreadyConfigured
  /-- Raised by SEND when a host issues it (R181 (c)). Safe. -/
  | sendFromHost
  /-- Raised by every command of a second concurrent host (R181 (d)). Safe. -/
  | secondHost
  /-- Raised by every command but SEND when the front end issues it: its one command is SEND (R52, R70, R111; log 10). Safe. -/
  | frontEnd
  /-- Raised by a wire pattern where the sequencer's position does not carry it: nothing but the sequencer drives DOUT (R121, log 11). Safe. -/
  | offPattern
  /-- Raised by the fetch when the bytes on `cmd` are no command (log 18). Safe. -/
  | undecodable (error : DecodeError)
deriving DecidableEq, Repr

/-- The state. `build` is what the implementation fixes (log 1); `life`, `seq` and `esr` are the block; `rsp`, `periphAvail` and `issuer` are
its ports (R201); `schedule` and `trace` are the model's own: the moves to come (log 2) and the environment's record of DOUT (log 13). -/
structure State where
  /-- The build constants and open parameters (R14, R28). -/
  build : Build
  /-- LIFE, with CFG and PB (R10 to R13, R16). -/
  life : Life
  /-- The sequencer tuple (R20). -/
  seq : Sequencer
  /-- ESR: bit 0 CFG_ERR, bit 1 HW_ERR, bit 2 IDX_ERR (R25). -/
  esr : BitVec 3
  /-- The `rsp` port: the response to the last command taken (R201); `none` while no command has been taken since reset (log 8). -/
  rsp : Option Response
  /-- The `periph_avail` port (R201): PERIPH_AVAIL as the environment drives it. -/
  periphAvail : Bool
  /-- Who drives `cmd` (log 10). -/
  issuer : Issuer
  /-- The moves still to come, next one first; when there is none the block only ticks. -/
  schedule : List Move
  /-- The level DOUT had in each tick so far, oldest first. -/
  trace : List Bool
deriving DecidableEq, Repr

/-- The sequencer in IDLE (R20, R29). -/
def Sequencer.idle : Sequencer where
  phase := .idle
  txq := []
  tck := 0
  hold := 0

/-- The machine right after reset (R29, R200), of the reference build, with `periph_avail` at its default (D19), nothing scheduled and
nothing observed. -/
def State.reset : State where
  build := .reference
  life := .unconfigured
  seq := .idle
  esr := 0b000#3
  rsp := none
  periphAvail := true
  issuer := .host
  schedule := []
  trace := []

end Sys2Proof.Machine
end

