-- ==== Sys2Proof/Machine/Flags.lean ====
section
/-! DEFINITION. The flags and outputs (10_state.md section 6): DOUT, BUSY and ESR, the numbers of the error kinds (R170), and the derived
position views of R20. -/
namespace Sys2Proof.Machine

/-- DOUT during the tick that starts in this sequencer state (R23). -/
def Sequencer.dout (b : Build) (q : Sequencer) : Bool :=
  match q.phase, q.txq with
  | .shift, v :: _ => decide (q.tck < highLen b v)
  | .shift, [] => false
  | .idle, _ => false
  | .latch, _ => false

/-- BUSY: PHASE is not IDLE (R24). -/
def Sequencer.busy (q : Sequencer) : Bool := q.phase != .idle

/-- The `dout` port (R201). -/
def State.dout (s : State) : Bool := s.seq.dout s.build

/-- The `busy` port (R201). -/
def State.busy (s : State) : Bool := s.seq.busy

/-- The code of an error's kind (R170, D14). -/
def BlockError.code : BlockError → Nat
  | .configuration _ => 1
  | .hardware _ => 2
  | .indexOutOfRange _ => 3

/-- The cause sub-code of an error (R170, D14); IndexOutOfRange has none. -/
def BlockError.subCode : BlockError → Option Nat
  | .configuration (.ledCount _) => some 1
  | .configuration (.brightness _) => some 2
  | .configuration (.length _ _) => some 3
  | .hardware .busy => some 1
  | .hardware .unavailable => some 2
  | .indexOutOfRange _ => none

/-- The ESR bit an error sets (R25): bit 0 CFG_ERR, bit 1 HW_ERR, bit 2 IDX_ERR. -/
def BlockError.esrBit : BlockError → BitVec 3
  | .configuration _ => 0b001#3
  | .hardware _ => 0b010#3
  | .indexOutOfRange _ => 0b100#3

/-- POS, the 0-based index of the head bit in a frame of `m` bits (R20). -/
def Sequencer.pos (m : Nat) (q : Sequencer) : Nat := m - q.txq.length

/-- PIX, the pixel being sent (R20). -/
def Sequencer.pix (m : Nat) (q : Sequencer) : Nat := q.pos m / 24

/-- BITI, the bit of the wire word being sent (R20). -/
def Sequencer.biti (m : Nat) (q : Sequencer) : Nat := 23 - q.pos m % 24

end Sys2Proof.Machine
end

