-- ==== Sys2Proof/Machine/Arithmetic.lean ====
section
/-! DEFINITION. The block's floating point (R98): one binary32 multiplication, rounded to nearest, ties to even, and a floor. A finite
binary32 has the exact value ± `magnitude` x 2^-149, so every product is a natural number and rounding is one division. -/
namespace Sys2Proof.Machine

/-- The sign bit. -/
def signBit (x : F32) : Bool := x.msb

/-- The exponent field, bits 30:23. -/
def exponentField (x : F32) : Nat := x.toNat / 2 ^ 23 % 256

/-- The fraction field, bits 22:0. -/
def fractionField (x : F32) : Nat := x.toNat % 2 ^ 23

/-- Whether the pattern is a NaN. -/
def isNaN (x : F32) : Bool := exponentField x == 255 && fractionField x != 0

/-- The significand of a finite pattern: a hidden bit unless the exponent field is 0 (subnormals are kept, R98). -/
def significand (x : F32) : Nat :=
  if exponentField x = 0 then fractionField x else 2 ^ 23 + fractionField x

/-- |x| in units of 2^-149, exactly, for a finite x; for an infinity, a number above every finite one. -/
def magnitude (x : F32) : Nat := significand x * 2 ^ (exponentField x - 1)

/-- x in units of 2^-149; both zeros are 0. -/
def signedValue (x : F32) : Int := if signBit x then -(magnitude x : Int) else magnitude x

/-- IEEE 754 comparison `x <= y`: false when either is a NaN (R92). -/
def leF32 (x y : F32) : Bool := !isNaN x && !isNaN y && decide (signedValue x ≤ signedValue y)

/-- The quotient `p / q` rounded to the nearest natural number, ties to even. -/
def roundQuotient (p q : Nat) : Nat :=
  let n := p / q
  let twice := 2 * (p % q)
  if q < twice ∨ (twice = q ∧ n % 2 = 1) then n + 1 else n

/-- The binary32 pattern nearest to `p x 2^-(149 + k)`, ties to even (`f32` and the rounding of `mul32`, 00_scope.md section 6). `x` is the
power of two, in units of 2^-149, of the last of 24 significant bits, and at least 0, which is where subnormals begin. -/
def roundToF32 (negative : Bool) (p k : Nat) : F32 :=
  let x := p.log2 - (k + 23)
  let n := roundQuotient p (2 ^ (k + x))
  let pattern := min (x * 2 ^ 23 + n) 0x7F800000
  BitVec.ofNat 32 (pattern + negative.toNat * 2 ^ 31)

/-- `f32(c)` of a channel; exact, since c <= 255 (R93). -/
def f32OfChannel (c : Channel) : F32 := roundToF32 false (c.toNat * 2 ^ 149) 0

/-- `mul32(x, y)`: the binary32 product of finite x and y (00_scope.md section 6). Only finite operands reach it: R92 rejects the others
before any arithmetic (R98, log 22). -/
def mul32 (x y : F32) : F32 := roundToF32 (signBit x != signBit y) (magnitude x * magnitude y) 149

/-- The floor of a non-negative finite binary32; "A floor of -0.0 is 0" (R93). -/
def floorF32 (x : F32) : Nat := magnitude x / 2 ^ 149

/-- `scale(c, b) = floor(mul32(f32(c), b))` (R93). -/
def scale (c : Channel) (b : F32) : Channel := BitVec.ofNat 8 (floorF32 (mul32 (f32OfChannel c) b))

/-- "the floor of the exact real product c × b", the other reading (R93). -/
def scaleExact (c : Channel) (b : F32) : Channel := BitVec.ofNat 8 (c.toNat * magnitude b / 2 ^ 149)

/-- A ScaleFn of which only R94 (a), (b), (c) and (f) are known (U1, log 6): 0 at zero brightness and for channel 0, c at 1.0, 0 at (f)'s
example (3, f32(0.2)), and elsewhere a free value that does not exceed c. -/
def scaleFree (c : Channel) (b : F32) : Channel :=
  if c = 0#8 ∨ b = 0x00000000#32 ∨ b = 0x80000000#32 then 0#8
  else if b = 0x3F800000#32 then c
  else if c = 3#8 ∧ b = 0x3E4CCCCD#32 then 0#8
  else if c.toNat < (freeScale c b).toNat then c
  else freeScale c b

/-- ScaleFn, by what a build takes (R7, D8, log 6). -/
def scaleBy : ScaleReading → Channel → F32 → Channel
  | .binary32, c, b => scale c b
  | .exact, c, b => scaleExact c b
  | .free, c, b => scaleFree c b

end Sys2Proof.Machine
end

