-- ==== Sys2Proof/Machine/Operands.lean ====
section
/-! DEFINITION. Operand forms: the named colours (R9), the defaults of omitted options (R74), the checks of R72 and R92, PB_INIT, and the
assembly of wire words and frame bits from Colors (R62, R97). -/
namespace Sys2Proof.Machine

/-- BLACK = Color(0, 0, 0) (R9, G1, log 4). -/
def black : Color := ⟨0#8, 0#8, 0#8⟩

/-- RED = Color(255, 0, 0) (R9). -/
def red : Color := ⟨255#8, 0#8, 0#8⟩

/-- An omitted CONFIGURE option takes its default (R74). -/
def optionOr {α : Type} (default : α) : Option α → α
  | none => default
  | some x => x

/-- `valid_brt(b)`: not a NaN and 0.0 <= b <= 1.0 under IEEE 754 comparison (R92). -/
def validBrt (b : F32) : Bool := leF32 0x00000000#32 b && leF32 b 0x3F800000#32

/-- The index an integer operand names, if it lies in [0, N) (R130, R131): no wrap, no counting from the end. -/
def indexInRange (index : Int) (ledCount : U32) : Option Nat :=
  if index < 0 ∨ index ≥ ledCount.toNat then none else some index.toNat

/-- PB_INIT(i) (R7, R18): the build's table, and BLACK where the table is silent. -/
def initialColor (b : Build) (i : Nat) : Color :=
  match b.pbInit.lookup i with
  | none => black
  | some c => c

/-- `word(c, b) = (scale(c.g, b) << 16) | (scale(c.r, b) << 8) | scale(c.b, b)`, the fields zero-extended first (R62). -/
def word (f : ScaleReading) (c : Color) (b : F32) : WireWord :=
  (scaleBy f c.g b).setWidth 24 <<< 16 ||| (scaleBy f c.r b).setWidth 24 <<< 8 ||| (scaleBy f c.b b).setWidth 24

/-- `frame_bits(buf, b)`: the words' bits, most significant first, in ascending index (R97, R42). -/
def frameBits (f : ScaleReading) (buffer : List Color) (b : F32) : List Bool :=
  buffer.flatMap fun c => bits24 (word f c b)

end Sys2Proof.Machine
end

