-- ==== Sys2Proof/Machine/Ops.lean ====
section
/-! DEFINITION. The shared operations: the PixelBuffer, responding and raising an error, what a command needs before it runs, loading and
ticking the sequencer, emitting a wire pattern, and reset. -/
namespace Sys2Proof.Machine

/-- The three outcomes of a step of this block. -/
abbrev Result := Host.Outcome State Fault Refusal

/-! ## The PixelBuffer -/

/-- `PB[i]` (R44, R46): the listed Color, or what the unlisted entry holds. -/
def Memory.read (init : Nat → Color) (m : Memory) (i : Nat) : Color :=
  match m.lookup i with
  | none => init i
  | some c => c

/-- `PB[i] <- c`, keeping the canonical form: an entry equal to its initial Color is not listed. -/
def Memory.write (init : Nat → Color) (i : Nat) (c : Color) : Memory → Memory
  | [] => if c = init i then [] else [(i, c)]
  | (j, d) :: rest =>
    if i < j then if c = init i then (j, d) :: rest else (i, c) :: (j, d) :: rest
    else if i = j then if c = init i then rest else (i, c) :: rest
    else (j, d) :: Memory.write init i c rest

/-- `for i in 0 .. n-1: PB[i] <- c` at once (R132, R47), in canonical form. -/
def Memory.fill (init : Nat → Color) (n : Nat) (c : Color) : Memory :=
  (List.range n).filterMap fun i => if c = init i then none else some (i, c)

/-- `MemRead(0, n)`: the entries from index 0 (00_scope.md section 6). -/
def Memory.readAll (init : Nat → Color) (m : Memory) (n : Nat) : List Color :=
  (List.range n).map (Memory.read init m)

/-- The canonical form of a PixelBuffer of `n` entries: indices strictly rising and below n, no entry equal to its initial Color. -/
def Memory.wf (init : Nat → Color) (n : Nat) (m : Memory) : Bool :=
  decide (m.Pairwise fun p q => p.1 < q.1) && m.all fun p => decide (p.1 < n) && decide (p.2 ≠ init p.1)

/-- The Color at an index of a strip (R16). -/
def Strip.read (b : Build) (p : Strip) (i : Nat) : Color := Memory.read (initialColor b) p.pb i

/-- The strip with one entry written (R130). -/
def Strip.write (b : Build) (p : Strip) (i : Nat) (c : Color) : Strip :=
  { p with pb := Memory.write (initialColor b) i c p.pb }

/-- The strip with every entry written (R132). -/
def Strip.fillWith (b : Build) (p : Strip) (c : Color) : Strip :=
  { p with pb := Memory.fill (initialColor b) p.ledCount.toNat c }

/-- The whole PixelBuffer in ascending index, as FLUSH reads it (R96). -/
def Strip.colors (b : Build) (p : Strip) : List Color := Memory.readAll (initialColor b) p.pb p.ledCount.toNat

/-! ## Answering a command -/

/-- The command ends and the host gets this response (R201). -/
def respond (r : Response) (s : State) : Result := .next { s with rsp := some r }

/-- ERROR ENTRY, the block's exception (R176): the ESR bit of the kind is set, the host gets the error, and nothing else changes: no
register, no PixelBuffer entry, no part of the sequencer. There is no handler, saved state or mode. There is no return from it either, and
nothing to restore (R177): the next command is taken as after any other. -/
def raise (e : BlockError) (s : State) : Result := .next { s with esr := s.esr ||| e.esrBit, rsp := some (.error e) }

/-- A command of the host runs only from the one issuing agent (R52): a second host's is refused (R181 (d)), and the front end, whose one
command is SEND (R70, R111), issues none of them (log 10). -/
def fromHost (s : State) (run : Result) : Result :=
  match s.issuer with
  | .host => run
  | .secondHost => .refused .secondHost
  | .frontEnd => .refused .frontEnd

/-- SEND runs only from the block's front end (R70, R111): a host's is refused (R181 (c), (d)). -/
def fromFrontEnd (s : State) (run : Result) : Result :=
  match s.issuer with
  | .frontEnd => run
  | .host => .refused .sendFromHost
  | .secondHost => .refused .secondHost

/-- What every command but CONFIGURE needs: LIFE = READY (R181 (a)). -/
def whenReady (s : State) (run : Strip → Result) : Result :=
  match s.life with
  | .ready strip => run strip
  | .unconfigured => .refused .unconfigured

/-- What CONFIGURE needs: LIFE = UNCONFIGURED (R80, R181 (b)). -/
def whenUnconfigured (s : State) (run : Result) : Result :=
  match s.life with
  | .unconfigured => run
  | .ready _ => .refused .alreadyConfigured

/-! ## The sequencer -/

/-- The sequencer at a symbol boundary with these bits to send: the load of R111, and what R114 leaves when a symbol has ended. -/
def Sequencer.load (b : Build) : List Bool → Sequencer
  | [] => { phase := .latch, txq := [], tck := 0, hold := b.resetTicks }
  | v :: rest => { phase := .shift, txq := v :: rest, tck := 0, hold := 0 }

/-- `SEND(bits)` (R111): BUSY, then UNAVAILABLE, then the load. -/
def sendBits (bits : List Bool) (s : State) : Result :=
  if s.seq.phase ≠ .idle then raise (.hardware .busy) s
  else if ¬ s.periphAvail then raise (.hardware .unavailable) s
  else respond .ok { s with seq := Sequencer.load s.build bits }

/-- `ENCODE(buffer, brightness)` on a constructed strip (R95): LENGTH, then BRIGHTNESS, then SEND with its own checks (C8). -/
def encodeAndSend (buffer : List Color) (brightness : F32) (strip : Strip) (s : State) : Result :=
  if buffer.length ≠ strip.ledCount.toNat then raise (.configuration (.length buffer.length strip.ledCount)) s
  else if ¬ validBrt brightness then raise (.configuration (.brightness brightness)) s
  else sendBits (frameBits s.build.scaleFn buffer brightness) s

/-- The sequencer after one tick: `tick()` of R114. -/
def Sequencer.tick (b : Build) (q : Sequencer) : Sequencer :=
  match q.phase with
  | .idle => q
  | .shift =>
    if q.tck < b.tb - 1 then { q with tck := q.tck + 1 }
    else
      match q.txq.tail with
      | [] => { q with phase := .latch, txq := [], tck := 0, hold := b.resetTicks }
      | v :: rest => { q with txq := v :: rest, tck := 0 }
  | .latch => if 1 < q.hold then { q with hold := q.hold - 1 } else { q with phase := .idle, hold := 0 }

/-- One tick of the block (R114): DOUT has its level during the tick, and at its end the sequencer moves; nothing else changes. The
environment's record grows by that level. -/
def tick (s : State) : State := { s with seq := s.seq.tick s.build, trace := s.trace ++ [s.dout] }

/-- `n` ticks with nothing in between. -/
def ticks : Nat → State → State
  | 0, s => s
  | n + 1, s => ticks n (tick s)

/-- The levels of DOUT during the next `n` ticks. -/
def levels : Nat → State → List Bool
  | 0, _ => []
  | n + 1, s => s.dout :: levels n (tick s)

/-! ## Wire patterns -/

/-- The sequencer runs the symbols of `bits` to the end (R63, R110, R112), where TXQ begins with them: the line carries the levels still to
come of them, and TXQ loses them. A pattern that is not at the sequencer's position is nobody's to emit (R121, log 11). -/
def emitBits (bits : List Bool) (s : State) : Result :=
  if s.seq.phase = .shift ∧ bits.isPrefixOf s.seq.txq then
    .next { s with
      seq := Sequencer.load s.build (s.seq.txq.drop bits.length)
      trace := s.trace ++ (symbols s.build bits).drop s.seq.tck }
  else .refused .offPattern

/-- The sequencer runs the low-hold to its end (R63, R112): HOLD low ticks, then IDLE. -/
def emitLowHold (s : State) : Result :=
  if s.seq.phase = .latch then
    .next { s with seq := .idle, trace := s.trace ++ List.replicate s.seq.hold false }
  else .refused .offPattern

/-! ## Reset -/

/-- RESET of the block (R200, R202): every part of it at its reset value at once, a frame in flight cut with no low-hold. The build, the
environment's input and record, and the moves to come are not the block's and stay (log 14). -/
def resetBlock (s : State) : State :=
  { State.reset with
    build := s.build
    periphAvail := s.periphAvail
    schedule := s.schedule
    trace := s.trace }

end Sys2Proof.Machine
end

