-- ==== Sys2Proof/Machine/Configure.lean ====
section
/-! DEFINITION. Construction (40_configure.md). -/
namespace Sys2Proof.Machine

/-- CONFIGURE(led_count, output_pin, brightness) (R80). Omitted options take their defaults (R74). PB holds PB_INIT, so nothing is listed. -/
def execConfigure (ledCount : Option U32) (outputPin : Option PinId) (brightness : Option F32) (s : State) : Result :=
  let n := optionOr defaultLedCount ledCount
  let pin := optionOr defaultOutputPin outputPin
  let brt := optionOr s.build.brtDefault brightness
  fromHost s <| whenUnconfigured s <|
    if n = 0#32 then raise (.configuration (.ledCount n)) s
    else if ¬ validBrt brt then raise (.configuration (.brightness brt)) s
    else
      respond .ok
        { s with life := .ready { ledCount := n, outputPin := pin, brightness := brt, pb := [] } }

end Sys2Proof.Machine
end

