-- ==== Sys2Proof/Machine/Encoder.lean ====
section
/-! DEFINITION. The encoder front end (41_encoder.md). -/
namespace Sys2Proof.Machine

/-- ENCODE(buffer, brightness) (R95): its own buffer and brightness, neither PB nor CFG.BRT. -/
def execEncode (buffer : List Color) (brightness : F32) (s : State) : Result :=
  fromHost s <| whenReady s fun strip => encodeAndSend buffer brightness strip s

/-- FLUSH() is ENCODE(MemRead(0, CFG.N), CFG.BRT) (R96, R75). -/
def execFlush (s : State) : Result :=
  fromHost s <| whenReady s fun strip => encodeAndSend (strip.colors s.build) strip.brightness strip s

end Sys2Proof.Machine
end

