-- ==== Sys2Proof/Machine/PixelBuffer.lean ====
section
/-! DEFINITION. The PixelBuffer commands (43_pixelbuffer.md): legal whatever PHASE is (R56). -/
namespace Sys2Proof.Machine

/-- SET(index, color) (R130). -/
def execSet (index : Int) (color : Color) (s : State) : Result :=
  fromHost s <| whenReady s fun strip =>
    match indexInRange index strip.ledCount with
    | none => raise (.indexOutOfRange index) s
    | some i => respond .ok { s with life := .ready (strip.write s.build i color) }

/-- GET(index) (R131): the logical Color, unscaled and in (r, g, b) order. -/
def execGet (index : Int) (s : State) : Result :=
  fromHost s <| whenReady s fun strip =>
    match indexInRange index strip.ledCount with
    | none => raise (.indexOutOfRange index) s
    | some i => respond (.color (strip.read s.build i)) s

/-- FILL(color) (R132). -/
def execFill (color : Color) (s : State) : Result :=
  fromHost s <| whenReady s fun strip => respond .ok { s with life := .ready (strip.fillWith s.build color) }

/-- CLEAR() is FILL(BLACK) (R133). -/
def execClear (s : State) : Result :=
  fromHost s <| whenReady s fun strip => respond .ok { s with life := .ready (strip.fillWith s.build black) }

end Sys2Proof.Machine
end

