-- ==== Sys2Proof/Machine/Transmitter.lean ====
section
/-! DEFINITION. The transmitter's one operation (42_transmitter.md R111). -/
namespace Sys2Proof.Machine

/-- SEND(bits) (R111), the internal operation between the front end and the transmitter; from a host it is refused (R70, R181 (c)). -/
def execSend (bits : List Bool) (s : State) : Result :=
  fromFrontEnd s <| whenReady s fun _ => sendBits bits s

end Sys2Proof.Machine
end

