-- ==== Sys2Proof/Machine/Wire.lean ====
section
/-! DEFINITION. The wire patterns (30_encoding.md R61, R63), as the sequencer runs them: each to its end, from where in it TCK or HOLD
stands (log 11). The tick by tick machine of R114 is `tick`; that the two agree is R115. -/
namespace Sys2Proof.Machine

/-- WORD24: the 24 symbols of the word, bit 23 first (R40, R61, R64). -/
def execWord24 (w : WireWord) (s : State) : Result := emitBits (bits24 w) s

/-- SYM0: `1^T1 ++ 0^(T2+T3)` (R63). -/
def execSym0 (s : State) : Result := emitBits [false] s

/-- SYM1: `1^(T1+T2) ++ 0^T3` (R63). -/
def execSym1 (s : State) : Result := emitBits [true] s

/-- RESET: `0^RESET_TICKS` after the last bit, then IDLE (R63, R112). -/
def execReset (s : State) : Result := emitLowHold s

end Sys2Proof.Machine
end

