-- ==== Sys2Proof/Machine/Dispatch.lean ====
section
/-! DEFINITION. One arm per instruction, each a direct call of its meaning. -/
namespace Sys2Proof.Machine

def exec (i : Instr) (s : State) : Host.Outcome State Fault Refusal :=
  match i with
  | .configure n pin brt => Sys2Proof.Machine.execConfigure n pin brt s
  | .set index color => Sys2Proof.Machine.execSet index color s
  | .get index => Sys2Proof.Machine.execGet index s
  | .fill color => Sys2Proof.Machine.execFill color s
  | .clear => Sys2Proof.Machine.execClear s
  | .flush => Sys2Proof.Machine.execFlush s
  | .encode buffer brt => Sys2Proof.Machine.execEncode buffer brt s
  | .send bits => Sys2Proof.Machine.execSend bits s
  | .word24 w => Sys2Proof.Machine.execWord24 w s
  | .sym0 => Sys2Proof.Machine.execSym0 s
  | .sym1 => Sys2Proof.Machine.execSym1 s
  | .reset => Sys2Proof.Machine.execReset s

end Sys2Proof.Machine
end

