-- ==== Sys2Proof/Machine/Fetch.lean ====
section
/-! DEFINITION. What the next move is (R8, R114): the schedule's head, decoded. A tick boundary is where a command, a change of
`periph_avail` or a reset lands (R47, R200); with nothing scheduled the block ticks (a tick is always enabled, R114). -/
namespace Sys2Proof.Machine

/-- What a step is about to do. -/
inductive Fetched where
  /-- Run an instruction in this state. -/
  | run (i : Instr) (s : State)
  /-- One tick from this state. -/
  | tick (s : State)
  /-- A move that takes no tick and runs no instruction, done. -/
  | moved (s : State)
  /-- The run is refused. -/
  | refuse (r : Refusal)

/-- The wire pattern at the sequencer's position (R56: the sequencer fetches from TXQ): the head's symbol in SHIFT, RESET in LATCH, nothing
in IDLE. -/
def patternAt (q : Sequencer) : Option Instr :=
  match q.phase, q.txq with
  | .shift, true :: _ => some .sym1
  | .shift, false :: _ => some .sym0
  | .shift, [] => none
  | .latch, _ => some .reset
  | .idle, _ => none

/-- The wire instruction a `wire` move runs: the word at the sequencer's position where 24 bits are queued, else the pattern there. -/
def wireInstr (u : WireUnit) (q : Sequencer) : Option Instr :=
  match u with
  | .pattern => patternAt q
  | .word =>
    if q.phase = .shift ∧ 24 ≤ q.txq.length then some (.word24 (wordOfBits (q.txq.take 24))) else patternAt q

/-- The next move. -/
def fetch (s : State) : Fetched :=
  match s.schedule with
  | [] => .tick s
  | .wait 0 :: rest => .moved { s with schedule := rest }
  | .wait (n + 1) :: rest => .tick { s with schedule := .wait n :: rest }
  | .waitIdle :: rest => if s.busy then .tick s else .moved { s with schedule := rest }
  | .periphAvail available :: rest => .moved { s with periphAvail := available, schedule := rest }
  | .reset :: rest => .moved (resetBlock { s with schedule := rest })
  | .command issuer bytes :: rest =>
    match decodeCommand bytes with
    | .ok i => .run i { s with schedule := rest, issuer := issuer }
    | .error e => .refuse (.undecodable e)
  | .wire u :: rest =>
    match wireInstr u s.seq with
    | some i => .run i { s with schedule := rest }
    | none => .tick { s with schedule := rest }

/-- A command put on `cmd` as the next move. -/
def placeCommand (issuer : Issuer) (bytes : List Byte) (s : State) : State :=
  { s with schedule := .command issuer bytes :: s.schedule }

/-- The sequencer loaded with bits to send (none: the low-hold), and the move that runs what stands there as the next one. -/
def placeWire (u : WireUnit) (bits : List Bool) (s : State) : State :=
  { s with seq := Sequencer.load s.build bits, schedule := .wire u :: s.schedule }

/-- The state in which the next move runs the table word `w` of `nbits` bits (log 24): a command goes onto `cmd`, from the host, or from
the front end where it is SEND; a wire pattern goes into the sequencer. Bits that are no instruction go onto `cmd`, where the fetch refuses
them. -/
def placeTableWord (s : State) (nbits w : Nat) : State :=
  match decodeTableWord nbits w with
  | none => placeCommand .host (tableCommand nbits w) s
  | some (.configure _ _ _) => placeCommand .host (tableCommand nbits w) s
  | some (.set _ _) => placeCommand .host (tableCommand nbits w) s
  | some (.get _) => placeCommand .host (tableCommand nbits w) s
  | some (.fill _) => placeCommand .host (tableCommand nbits w) s
  | some .clear => placeCommand .host (tableCommand nbits w) s
  | some .flush => placeCommand .host (tableCommand nbits w) s
  | some (.encode _ _) => placeCommand .host (tableCommand nbits w) s
  | some (.send _) => placeCommand .frontEnd (tableCommand nbits w) s
  | some (.word24 word) => placeWire .word (bits24 word) s
  | some .sym0 => placeWire .pattern [false] s
  | some .sym1 => placeWire .pattern [true] s
  | some .reset => placeWire .pattern [] s

end Sys2Proof.Machine
end

