-- ==== Sys2Proof/Machine/Step.lean ====
section
/-! DEFINITION. One step of the machine: the next move of an agent (Machine/Fetch.lean), a command or a wire pattern through `exec`, a tick
through `tick`. -/
namespace Sys2Proof.Machine

/-- One step (R114): what `fetch` gives is done. -/
def step (s : State) : Host.Outcome State Fault Refusal :=
  match fetch s with
  | .run i s' => exec i s'
  | .tick s' => .next (tick s')
  | .moved s' => .next s'
  | .refuse r => .refused r

/-- `s` with the table word placed where the next step fetches it (log 2, log 24). -/
def State.withFetchWord (s : State) (nbits w : Nat) : State := placeTableWord s nbits w

end Sys2Proof.Machine
end

