-- ==== Sys2Proof/Machine/HostSoftware.lean ====
section
/-! DEFINITION. The host software of 44_host_software.md, as functions of the host agent: colours, and the moves it schedules. It is "never
... behaviour of the block" (R5): nothing of the block calls this file. -/
namespace Sys2Proof.Machine

/-- `delta.ch = trunc((to.ch - from.ch) / steps)`, rounded toward zero (R143, U9, log 21). -/
def fadeDelta (start stop : Channel) (steps : Nat) : Int := ((stop.toNat : Int) - start.toNat).tdiv steps

/-- `c_k.ch = from.ch + k × delta.ch` (R144). -/
def fadeChannel (start stop : Channel) (steps k : Nat) : Int := start.toNat + k * fadeDelta start stop steps

/-- The k-th colour of a fade (R144). -/
def fadeColor (start stop : Color) (steps k : Nat) : Color where
  r := BitVec.ofInt 8 (fadeChannel start.r stop.r steps k)
  g := BitVec.ofInt 8 (fadeChannel start.g stop.g steps k)
  b := BitVec.ofInt 8 (fadeChannel start.b stop.b steps k)

/-- The colours shown, k = 1, 2, .. , steps in this order (R144, C2). -/
def fadeColors (start stop : Color) (steps : Nat) : List Color :=
  (List.range steps).map fun j => fadeColor start stop steps (j + 1)

/-- One step: `FILL(c); FLUSH(); WAIT_IDLE; WAIT(step_delay)` (R145). -/
def showColor (delay : Nat) (c : Color) : List Move :=
  [.command .host (encodeCommand (.fill c)), .command .host (encodeCommand .flush), .waitIdle, .wait delay]

/-- `fade_in` (R142, R146, C4): the steps, with no clear at the end. `steps` is positive by its type; there is no fade of 0 steps (R147). -/
def fadeIn (start stop : Color) (steps delay : Nat) : Option (List Move) :=
  if steps = 0 then none else some ((fadeColors start stop steps).flatMap (showColor delay))

/-- `fade_out` (R146): the steps, then BLACK shown once more. -/
def fadeOut (start stop : Color) (steps delay : Nat) : Option (List Move) :=
  (fadeIn start stop steps delay).map (· ++ showColor delay black)

/-- `wheel(p)` (R150, R151). BLACK outside [0, 255] and the values at 0 and 85 are the source's; the ramp between is PRESUMED (G2, log 20). -/
def wheel (p : Int) : Color :=
  if p < 0 ∨ 255 < p then black
  else if p < 85 then ⟨BitVec.ofInt 8 (255 - 3 * p), BitVec.ofInt 8 (3 * p), 0#8⟩
  else if p < 170 then ⟨0#8, BitVec.ofInt 8 (255 - 3 * (p - 85)), BitVec.ofInt 8 (3 * (p - 85))⟩
  else ⟨BitVec.ofInt 8 (3 * (p - 170)), 0#8, BitVec.ofInt 8 (255 - 3 * (p - 170))⟩

/-- The debounce window, in milliseconds (R160). -/
def debounceMs : Nat := 50

/-- Whether an edge of the active-low button counts (R160): the level fell, and is still low when checked again after the window. -/
def buttonPressed (before atEdge afterWindow : Bool) : Bool := before && !atEdge && !afterWindow

/-- The palette index after a press: the application cycles through a fixed palette of `size` colours (R162). -/
def nextPaletteIndex (size index : Nat) : Nat := (index + 1) % size

end Sys2Proof.Machine
end

