-- ==== Sys2Proof/Safety.lean ====
section
/-! DEFINITION. What a good state is, in the terms the claims use: the sequencer's invariant (R21), a constructed strip's, the state's, and
the record of the low-hold (R119). -/
namespace Sys2Proof.Machine

/-- The invariant of the sequencer state, R21 word for word. -/
def Sequencer.Inv (b : Build) (q : Sequencer) : Prop :=
  (q.phase = .idle ∧ q.txq = [] ∧ q.tck = 0 ∧ q.hold = 0) ∨
  (q.phase = .shift ∧ q.txq ≠ [] ∧ q.tck < b.tb ∧ q.hold = 0) ∨
  (q.phase = .latch ∧ q.txq = [] ∧ q.tck = 0 ∧ 1 ≤ q.hold ∧ q.hold ≤ b.resetTicks)

/-- What CONFIGURE leaves of every strip (R80, R81): N >= 1, a legal brightness, and a PixelBuffer of N entries in canonical form. -/
def Strip.Inv (b : Build) (p : Strip) : Prop :=
  p.ledCount ≠ 0#32 ∧ validBrt p.brightness = true ∧ Memory.wf (initialColor b) p.ledCount.toNat p.pb = true

/-- What LIFE carries is a legal strip. -/
def Life.Inv (b : Build) : Life → Prop
  | .unconfigured => True
  | .ready strip => Strip.Inv b strip

/-- The invariant of the machine: a legal build (R7, R14), the sequencer's invariant (R21), and a legal strip once there is one. -/
def State.Inv (s : State) : Prop := s.build.legal = true ∧ Sequencer.Inv s.build s.seq ∧ Life.Inv s.build s.life

/-- In the low-hold, the line has been low for every tick of it so far: the last RESET_TICKS - HOLD levels of the record (R112, R119). -/
def State.LowHeld (s : State) : Prop :=
  s.seq.phase = .latch → List.replicate (s.build.resetTicks - s.seq.hold) false <:+ s.trace

/-- A run with no error so far (R25: "claims take ESR = 0 as a premise", D17). -/
def State.errorFree (s : State) : Prop := s.esr = 0b000#3

/-- The next move is not a reset. -/
def State.noReset (s : State) : Prop := s.schedule.head? ≠ some .reset

/-- Ticks until BUSY returns to 0 when nothing but ticks comes (R115, R116). -/
def State.ticksLeft (s : State) : Nat :=
  match s.seq.phase with
  | .idle => 0
  | .shift => s.seq.txq.length * s.build.tb - s.seq.tck + s.build.resetTicks
  | .latch => s.seq.hold

end Sys2Proof.Machine
end

