-- ==== Sys2Proof/Certificates/Slice0/Obligations.lean ====
section
/-! DEFINITION. The statements for the provers. Each docstring names the rule of spec/ it formalises, or says that it is the model's. -/

open Sys2Proof Sys2Proof.Machine

/-! ## Reset and the step -/

/-- R29: the values after reset, the spec's own choice (D21, D23). CFG and PB are what only LIFE = READY carries, so LIFE = UNCONFIGURED says
that they hold no value; that representation is the model's (log 5). -/
def Obligations.ResetLeavesTheStatedValues : Prop :=
  State.reset.life = .unconfigured ∧ State.reset.seq.phase = .idle ∧ State.reset.seq.txq = [] ∧ State.reset.seq.tck = 0 ∧
  State.reset.seq.hold = 0 ∧ State.reset.dout = false ∧ State.reset.busy = false ∧ State.reset.esr = 0b000#3

/-- R200, R202: a reset in any state, a frame in flight included, leaves the reset values at once, with the line low and no low-hold. That
the build, `periph_avail`, the later moves and the record stay is the model's (log 14). -/
def Obligations.ResetInAnyStateCutsTheFrame : Prop :=
  ∀ (s : State) (rest : List Move), s.schedule = .reset :: rest →
    ∃ t, step s = .next t ∧ t.life = .unconfigured ∧ t.seq.phase = .idle ∧ t.seq.txq = [] ∧ t.seq.tck = 0 ∧ t.seq.hold = 0 ∧
      t.esr = 0b000#3 ∧ t.dout = false ∧ t.busy = false ∧
      t.build = s.build ∧ t.periphAvail = s.periphAvail ∧ t.schedule = rest ∧ t.trace = s.trace

/-- A step runs the decoded instruction: the command on `cmd`, taken at a tick boundary and completed there (R201, R47). The step adds
only that the move is spent and who issued it. -/
def Obligations.StepRunsTheCommandOnThePort : Prop :=
  ∀ (s : State) (who : Issuer) (bytes : List Byte) (rest : List Move) (i : Instr),
    s.schedule = .command who bytes :: rest → decodeCommand bytes = .ok i →
      step s = exec i { s with schedule := rest, issuer := who }

/-- A step runs the wire instruction at the sequencer's position (log 12): the head's symbol in SHIFT, the low-hold in LATCH, the whole
word where 24 bits are queued; in IDLE there is none, and a tick passes. -/
def Obligations.StepRunsTheWirePatternAtThePosition : Prop :=
  ∀ (s : State) (rest : List Move),
    (∀ v tl, s.schedule = .wire .pattern :: rest → s.seq.phase = .shift → s.seq.txq = v :: tl →
      step s = exec (if v then .sym1 else .sym0) { s with schedule := rest }) ∧
    (∀ u, s.schedule = .wire u :: rest → s.seq.phase = .latch → step s = exec .reset { s with schedule := rest }) ∧
    (∀ w tl, s.schedule = .wire .word :: rest → s.seq.phase = .shift → s.seq.txq = bits24 w ++ tl →
      step s = exec (.word24 w) { s with schedule := rest }) ∧
    (∀ u, s.schedule = .wire u :: rest → s.seq.phase = .idle → step s = .next (tick { s with schedule := rest }))

/-- The moves without an instruction (R74, log 2): nothing scheduled and `WAIT` tick; `WAIT_IDLE` ticks while BUSY = 1 and no longer; a
change of `periph_avail` takes no tick. -/
def Obligations.StepWithoutInstruction : Prop :=
  ∀ (s : State) (rest : List Move),
    (s.schedule = [] → step s = .next (tick s)) ∧
    (∀ n, s.schedule = .wait (n + 1) :: rest → step s = .next (tick { s with schedule := .wait n :: rest })) ∧
    (s.schedule = .wait 0 :: rest → step s = .next { s with schedule := rest }) ∧
    (s.schedule = .waitIdle :: rest → s.busy = true → step s = .next (tick s)) ∧
    (s.schedule = .waitIdle :: rest → s.busy = false → step s = .next { s with schedule := rest }) ∧
    (∀ a, s.schedule = .periphAvail a :: rest → step s = .next { s with periphAvail := a, schedule := rest })

/-! ## Construction -/

/-- R80: a CONFIGURE with a non-zero led_count and a brightness in [0,1], each given or by default, makes the strip, with PB_INIT in every
entry; the sequencer and every other part stay. -/
def Obligations.ConfigureConstructsTheStrip : Prop :=
  ∀ (s : State) (n : Option U32) (pin : Option PinId) (brt : Option F32),
    s.issuer = .host → s.life = .unconfigured → optionOr 16#32 n ≠ 0#32 →
    validBrt (optionOr s.build.brtDefault brt) = true →
      ∃ p : Strip, exec (.configure n pin brt) s = .next { s with life := .ready p, rsp := some .ok } ∧
        p.ledCount = optionOr 16#32 n ∧ p.outputPin = optionOr 6 pin ∧ p.brightness = optionOr s.build.brtDefault brt ∧
        ∀ i, i < p.ledCount.toNat → p.read s.build i = initialColor s.build i

/-- R74: "An omitted CONFIGURE option takes its default (16, 6, BRT_DEFAULT)", each option by itself, in every state. -/
def Obligations.OmittedOptionsTakeTheirDefaults : Prop :=
  ∀ (s : State) (n : Option U32) (pin : Option PinId) (brt : Option F32),
    exec (.configure none pin brt) s = exec (.configure (some 16#32) pin brt) s ∧
    exec (.configure n none brt) s = exec (.configure n (some 6) brt) s ∧
    exec (.configure n pin none) s = exec (.configure n pin (some s.build.brtDefault)) s

/-- R80, R172: CONFIGURE's errors, LED_COUNT before BRIGHTNESS; LIFE stays UNCONFIGURED and nothing but ESR and the response changes. -/
def Obligations.ConfigureReportsLedCountThenBrightness : Prop :=
  ∀ (s : State) (n : U32) (pin : PinId) (brt : F32), s.issuer = .host → s.life = .unconfigured →
    (n = 0#32 → exec (.configure (some n) (some pin) (some brt)) s =
      .next { s with esr := s.esr ||| 0b001#3, rsp := some (.error (.configuration (.ledCount 0#32))) }) ∧
    (n ≠ 0#32 → validBrt brt = false → exec (.configure (some n) (some pin) (some brt)) s =
      .next { s with esr := s.esr ||| 0b001#3, rsp := some (.error (.configuration (.brightness brt))) })

/-- R81: "After a successful CONFIGURE, N, OUT_PIN and BRT do not change until reset", and so neither does the length of the PixelBuffer,
which is N; reset is the teardown, and nothing of the strip survives it. -/
def Obligations.ConfigurationIsFixedUntilReset : Prop :=
  (∀ (s t : State) (p : Strip), s.noReset → s.life = .ready p → step s = .next t →
    ∃ q : Strip, t.life = .ready q ∧ q.ledCount = p.ledCount ∧ q.outputPin = p.outputPin ∧ q.brightness = p.brightness) ∧
  ∀ (s : State) (rest : List Move), s.schedule = .reset :: rest → ∃ t, step s = .next t ∧ t.life = .unconfigured

/-! ## The PixelBuffer -/

/-- R130: SET writes its entry and nothing else. The premise `p.Inv` is the strip invariant that `StepKeepsTheInvariant` keeps. -/
def Obligations.SetWritesExactlyItsEntry : Prop :=
  ∀ (s : State) (p : Strip) (index : Int) (color : Color), s.issuer = .host → s.life = .ready p → p.Inv s.build →
    0 ≤ index → index < p.ledCount.toNat →
      ∃ q : Strip, exec (.set index color) s = .next { s with life := .ready q, rsp := some .ok } ∧
        q.ledCount = p.ledCount ∧ q.outputPin = p.outputPin ∧ q.brightness = p.brightness ∧
        q.read s.build index.toNat = color ∧ ∀ j, j ≠ index.toNat → q.read s.build j = p.read s.build j

/-- R130, R131, R44: an index outside [0, N), negative ones included, is an IndexOutOfRange that records it; ESR.IDX_ERR is set and nothing
else changes but the response. -/
def Obligations.IndexOutsideTheBufferErrs : Prop :=
  ∀ (s : State) (p : Strip) (index : Int) (color : Color), s.issuer = .host → s.life = .ready p →
    (index < 0 ∨ (p.ledCount.toNat : Int) ≤ index) →
      exec (.set index color) s = .next { s with esr := s.esr ||| 0b100#3, rsp := some (.error (.indexOutOfRange index)) } ∧
      exec (.get index) s = .next { s with esr := s.esr ||| 0b100#3, rsp := some (.error (.indexOutOfRange index)) }

/-- R131: GET responds the entry and changes nothing. -/
def Obligations.GetRespondsTheEntry : Prop :=
  ∀ (s : State) (p : Strip) (index : Int), s.issuer = .host → s.life = .ready p → 0 ≤ index →
    index < p.ledCount.toNat →
      exec (.get index) s = .next { s with rsp := some (.color (p.read s.build index.toNat)) }

/-- R132: FILL writes every entry of [0, N) and nothing else. -/
def Obligations.FillWritesEveryEntry : Prop :=
  ∀ (s : State) (p : Strip) (color : Color), s.issuer = .host → s.life = .ready p → p.Inv s.build →
    ∃ q : Strip, exec (.fill color) s = .next { s with life := .ready q, rsp := some .ok } ∧
      q.ledCount = p.ledCount ∧ q.outputPin = p.outputPin ∧ q.brightness = p.brightness ∧
      (∀ i, i < p.ledCount.toNat → q.read s.build i = color) ∧
      ∀ j, p.ledCount.toNat ≤ j → q.read s.build j = p.read s.build j

/-- R133, R75: CLEAR is FILL(BLACK), in every state. On a constructed strip it completes with every entry BLACK. That BLACK is
Color(0, 0, 0) is general knowledge (R9, G1, log 4). -/
def Obligations.ClearIsFillWithBlack : Prop :=
  (∀ s : State, exec .clear s = exec (.fill ⟨0#8, 0#8, 0#8⟩) s) ∧
  ∀ (s : State) (p : Strip), s.issuer = .host → s.life = .ready p → p.Inv s.build →
    ∃ q : Strip, exec .clear s = .next { s with life := .ready q, rsp := some .ok } ∧
      q.ledCount = p.ledCount ∧ q.outputPin = p.outputPin ∧ q.brightness = p.brightness ∧
      (∀ i, i < p.ledCount.toNat → q.read s.build i = ⟨0#8, 0#8, 0#8⟩) ∧
      ∀ j, p.ledCount.toNat ≤ j → q.read s.build j = p.read s.build j

/-- The model's canonical form (log 7) is canonical: two PixelBuffers in it that read alike everywhere are the same list. -/
def Obligations.EqualReadsAreEqualBuffers : Prop :=
  ∀ (init : Nat → Color) (n : Nat) (m m' : Memory), Memory.wf init n m = true → Memory.wf init n m' = true →
    (∀ i, i < n → Memory.read init m i = Memory.read init m' i) → m = m'

/-! ## The front end -/

/-- R95: an ENCODE of N Colors at a legal brightness, from IDLE with the peripheral there, loads the frame's bits; PB and CFG are neither
read nor written. -/
def Obligations.EncodeLoadsTheFrame : Prop :=
  ∀ (s : State) (p : Strip) (buffer : List Color) (brt : F32), s.issuer = .host → s.life = .ready p →
    p.ledCount ≠ 0#32 → buffer.length = p.ledCount.toNat → validBrt brt = true → s.seq.phase = .idle → s.periphAvail = true →
      exec (.encode buffer brt) s = .next { s with
        seq := { phase := .shift, txq := frameBits s.build.scaleFn buffer brt, tck := 0, hold := 0 }, rsp := some .ok }

/-- R95, R172: ENCODE's errors in their order: LENGTH, BRIGHTNESS, BUSY, UNAVAILABLE; nothing but ESR and the response changes. -/
def Obligations.EncodeReportsTheFirstError : Prop :=
  ∀ (s : State) (p : Strip) (buffer : List Color) (brt : F32), s.issuer = .host → s.life = .ready p →
    (buffer.length ≠ p.ledCount.toNat → exec (.encode buffer brt) s = .next { s with
      esr := s.esr ||| 0b001#3, rsp := some (.error (.configuration (.length buffer.length p.ledCount))) }) ∧
    (buffer.length = p.ledCount.toNat → validBrt brt = false → exec (.encode buffer brt) s = .next { s with
      esr := s.esr ||| 0b001#3, rsp := some (.error (.configuration (.brightness brt))) }) ∧
    (buffer.length = p.ledCount.toNat → validBrt brt = true → s.seq.phase ≠ .idle → exec (.encode buffer brt) s =
      .next { s with esr := s.esr ||| 0b010#3, rsp := some (.error (.hardware .busy)) }) ∧
    (buffer.length = p.ledCount.toNat → validBrt brt = true → s.seq.phase = .idle → s.periphAvail = false →
      exec (.encode buffer brt) s =
        .next { s with esr := s.esr ||| 0b010#3, rsp := some (.error (.hardware .unavailable)) })

/-- R96, R75: FLUSH is ENCODE of the PixelBuffer's N entries in ascending index at CFG.BRT: it loads their frame, and PB stays. -/
def Obligations.FlushSendsThePixelBuffer : Prop :=
  ∀ (s : State) (p : Strip), s.issuer = .host → s.life = .ready p → p.Inv s.build →
    s.seq.phase = .idle → s.periphAvail = true →
      exec .flush s = .next { s with
        seq := { phase := .shift
                 txq := frameBits s.build.scaleFn ((List.range p.ledCount.toNat).map (p.read s.build)) p.brightness
                 tck := 0
                 hold := 0 }
        rsp := some .ok }

/-- R96, R171, R172: on a strip that CONFIGURE made, FLUSH fails only with BUSY, then UNAVAILABLE; where neither holds it answers OK. -/
def Obligations.FlushFailsOnlyWithHardwareError : Prop :=
  ∀ (s : State) (p : Strip), s.issuer = .host → s.life = .ready p → p.Inv s.build →
    (s.seq.phase ≠ .idle → exec .flush s =
      .next { s with esr := s.esr ||| 0b010#3, rsp := some (.error (.hardware .busy)) }) ∧
    (s.seq.phase = .idle → s.periphAvail = false → exec .flush s =
      .next { s with esr := s.esr ||| 0b010#3, rsp := some (.error (.hardware .unavailable)) }) ∧
    (s.seq.phase = .idle → s.periphAvail = true → ∃ t, exec .flush s = .next t ∧ t.rsp = some .ok ∧ t.esr = s.esr)

/-- R92: the legal brightness patterns are 0x00000000 to 0x3F800000 and 0x80000000, and no other. -/
def Obligations.LegalBrightnessPatterns : Prop :=
  ∀ b : F32, validBrt b = true ↔ b.toNat ≤ 0x3F800000 ∨ b = 0x80000000#32

/-- R94. For every ScaleFn of a build: (a) bounded by the channel; (b) 0 at zero brightness and for channel 0; (c) the identity at 1.0;
(f) 0 for (3, f32(0.2)). For the two readings of R93 also: (d) monotone in each argument; (e) exact where c x b is an integer (`magnitude b`
is b in units of 2^-149). -/
def Obligations.ScaleLaws : Prop :=
  ∀ (f : ScaleReading) (c c' : Channel) (b b' : F32), validBrt b = true → validBrt b' = true →
    (scaleBy f c b).toNat ≤ c.toNat ∧
    scaleBy f c 0x00000000#32 = 0#8 ∧ scaleBy f c 0x80000000#32 = 0#8 ∧ scaleBy f 0#8 b = 0#8 ∧
    scaleBy f c 0x3F800000#32 = c ∧ scaleBy f 3#8 0x3E4CCCCD#32 = 0#8 ∧
    (f ≠ .free → c.toNat ≤ c'.toNat → (scaleBy f c b).toNat ≤ (scaleBy f c' b).toNat) ∧
    (f ≠ .free → magnitude b ≤ magnitude b' → (scaleBy f c b).toNat ≤ (scaleBy f c b').toNat) ∧
    (f ≠ .free → ∀ k : Nat, c.toNat * magnitude b = k * 2 ^ 149 → (scaleBy f c b).toNat = k)

/-- R93: the two readings of the product differ by at most one, upward: rounding the product to binary32 first never loses a unit. -/
def Obligations.ReadingsDifferByAtMostOne : Prop :=
  ∀ (c : Channel) (b : F32), validBrt b = true →
    (scaleExact c b).toNat ≤ (scale c b).toNat ∧ (scale c b).toNat ≤ (scaleExact c b).toNat + 1

/-- 00_scope.md section 6, R98: `mul32` rounds correctly. For finite non-negative operands whose product does not pass the largest finite
value, no finite pattern is nearer to the exact product, and when another is as near, the result's last bit is 0. -/
def Obligations.ProductIsRoundedToNearestEven : Prop :=
  ∀ x y z : F32, x.toNat < 0x7F800000 → y.toNat < 0x7F800000 → z.toNat < 0x7F800000 →
    magnitude x * magnitude y ≤ magnitude 0x7F7FFFFF#32 * 2 ^ 149 →
      (mul32 x y).toNat < 0x7F800000 ∧
      ((magnitude (mul32 x y) : Int) * 2 ^ 149 - magnitude x * magnitude y).natAbs ≤
        ((magnitude z : Int) * 2 ^ 149 - magnitude x * magnitude y).natAbs ∧
      (z ≠ mul32 x y →
        ((magnitude (mul32 x y) : Int) * 2 ^ 149 - magnitude x * magnitude y).natAbs =
          ((magnitude z : Int) * 2 ^ 149 - magnitude x * magnitude y).natAbs → (mul32 x y).toNat % 2 = 0)

/-- R61, R62: the fields of a wire word: scaled green in bits 23:16, red in 15:8, blue in 7:0. -/
def Obligations.WireWordFields : Prop :=
  ∀ (f : ScaleReading) (c : Color) (b : F32),
    (word f c b).extractLsb' 16 8 = scaleBy f c.g b ∧ (word f c b).extractLsb' 8 8 = scaleBy f c.r b ∧
    (word f c b).extractLsb' 0 8 = scaleBy f c.b b

/-- R43, R97: a frame has 24 bits per Color, and its bit p is bit 23 - (p mod 24) of the word of entry p div 24. -/
def Obligations.FrameBitPosition : Prop :=
  ∀ (f : ScaleReading) (buffer : List Color) (b : F32),
    (frameBits f buffer b).length = 24 * buffer.length ∧
    ∀ (p : Nat) (c : Color), buffer[p / 24]? = some c →
      (frameBits f buffer b)[p]? = some ((word f c b).getLsbD (23 - p % 24))

/-! ## The transmitter -/

/-- R111: an accepted SEND loads the whole sequencer: SHIFT with the bits, or LATCH when there are none. It is the front end's (R70). -/
def Obligations.SendLoadsTheSequencer : Prop :=
  ∀ (s : State) (p : Strip) (bits : List Bool), s.issuer = .frontEnd → s.life = .ready p → s.seq.phase = .idle →
    s.periphAvail = true →
      (bits ≠ [] → exec (.send bits) s = .next { s with
        seq := { phase := .shift, txq := bits, tck := 0, hold := 0 }, rsp := some .ok }) ∧
      (bits = [] → exec (.send bits) s = .next { s with
        seq := { phase := .latch, txq := [], tck := 0, hold := s.build.resetTicks }, rsp := some .ok })

/-- R111, R172: SEND's errors, BUSY before UNAVAILABLE; ESR.HW_ERR is set and nothing else changes but the response. -/
def Obligations.SendReportsBusyThenUnavailable : Prop :=
  ∀ (s : State) (p : Strip) (bits : List Bool), s.issuer = .frontEnd → s.life = .ready p →
    (s.seq.phase ≠ .idle → exec (.send bits) s =
      .next { s with esr := s.esr ||| 0b010#3, rsp := some (.error (.hardware .busy)) }) ∧
    (s.seq.phase = .idle → s.periphAvail = false → exec (.send bits) s =
      .next { s with esr := s.esr ||| 0b010#3, rsp := some (.error (.hardware .unavailable)) })

/-- R114: what a tick does in each phase; nothing but the sequencer changes, and the record grows by DOUT (log 13). -/
def Obligations.TickMovesTheSequencerOnly : Prop :=
  ∀ s : State, s.schedule = [] →
    (s.seq.phase = .idle → step s = .next { s with trace := s.trace ++ [false] }) ∧
    (s.seq.phase = .shift → s.seq.tck < s.build.tb - 1 → step s = .next { s with
      seq := { s.seq with tck := s.seq.tck + 1 }, trace := s.trace ++ [s.dout] }) ∧
    (∀ v w tl, s.seq.phase = .shift → s.build.tb - 1 ≤ s.seq.tck → s.seq.txq = v :: w :: tl → step s = .next { s with
      seq := { s.seq with txq := w :: tl, tck := 0 }, trace := s.trace ++ [s.dout] }) ∧
    (∀ v, s.seq.phase = .shift → s.build.tb - 1 ≤ s.seq.tck → s.seq.txq = [v] → step s = .next { s with
      seq := { phase := .latch, txq := [], tck := 0, hold := s.build.resetTicks }, trace := s.trace ++ [s.dout] }) ∧
    (s.seq.phase = .latch → 1 < s.seq.hold → step s = .next { s with
      seq := { s.seq with hold := s.seq.hold - 1 }, trace := s.trace ++ [false] }) ∧
    (s.seq.phase = .latch → s.seq.hold ≤ 1 → step s = .next { s with
      seq := { s.seq with phase := .idle, hold := 0 }, trace := s.trace ++ [false] })

/-- R23, R24, R110: DOUT and BUSY as functions of the state: high_len(1) = T1 + T2, high_len(0) = T1; low in IDLE and in LATCH. -/
def Obligations.LineLevelAndBusy : Prop :=
  ∀ s : State,
    (∀ tl, s.seq.phase = .shift → s.seq.txq = true :: tl → (s.dout = true ↔ s.seq.tck < s.build.t1 + s.build.t2)) ∧
    (∀ tl, s.seq.phase = .shift → s.seq.txq = false :: tl → (s.dout = true ↔ s.seq.tck < s.build.t1)) ∧
    (s.seq.phase ≠ .shift → s.dout = false) ∧
    (s.busy = true ↔ s.seq.phase ≠ .idle)

/-- R112: loaded as R111 loads it, the machine of R114 emits `sym(v0) ++ .. ++ sym(v(M-1)) ++ 0^RESET_TICKS`, and DOUT stays 0 after it; in
tick p x TB + k it is 1 exactly if k < high_len(vp). And it is where R115 says after every number of ticks; the record grows by those levels
(log 13). -/
def Obligations.MachineEmitsTheWaveform : Prop :=
  ∀ (s : State) (bits : List Bool), s.build.legal = true →
    (s.seq = if bits = [] then { phase := .latch, txq := [], tck := 0, hold := s.build.resetTicks }
      else { phase := .shift, txq := bits, tck := 0, hold := 0 }) →
    (∀ m, levels (bits.length * s.build.tb + s.build.resetTicks + m) s =
      bits.flatMap (sym s.build) ++ List.replicate s.build.resetTicks false ++ List.replicate m false) ∧
    (∀ p k v, bits[p]? = some v → k < s.build.tb →
      ((ticks (p * s.build.tb + k) s).dout = true ↔ k < if v then s.build.t1 + s.build.t2 else s.build.t1)) ∧
    (∀ n, (ticks n s).trace = s.trace ++ levels n s) ∧
    (∀ p k, p < bits.length → k < s.build.tb →
      (ticks (p * s.build.tb + k) s).seq = { phase := .shift, txq := bits.drop p, tck := k, hold := 0 }) ∧
    (∀ j, j < s.build.resetTicks →
      (ticks (bits.length * s.build.tb + j) s).seq =
        { phase := .latch, txq := [], tck := 0, hold := s.build.resetTicks - j }) ∧
    (ticks (bits.length * s.build.tb + s.build.resetTicks) s).seq = { phase := .idle, txq := [], tck := 0, hold := 0 }

/-- R116: BUSY is 1 for exactly M x TB + RESET_TICKS ticks after an accepted SEND of M bits. -/
def Obligations.BusyLastsTheFrameAndTheLowHold : Prop :=
  ∀ (s : State) (bits : List Bool) (n : Nat), s.build.legal = true →
    (s.seq = if bits = [] then { phase := .latch, txq := [], tck := 0, hold := s.build.resetTicks }
      else { phase := .shift, txq := bits, tck := 0, hold := 0 }) →
    ((ticks n s).busy = true ↔ n < bits.length * s.build.tb + s.build.resetTicks)

/-- R20: in a frame, POS is the index of the head bit, PIX the pixel being sent and BITI the bit of its wire word. -/
def Obligations.PositionViewsNameTheBitBeingSent : Prop :=
  ∀ (f : ScaleReading) (buffer : List Color) (b : F32) (q : Sequencer) (p : Nat), p < 24 * buffer.length →
    q.txq = (frameBits f buffer b).drop p →
      q.pos (24 * buffer.length) = p ∧
      ∃ c, buffer[q.pix (24 * buffer.length)]? = some c ∧
        q.txq.head? = some ((word f c b).getLsbD (q.biti (24 * buffer.length)))

/-- R182: hang does not occur. In every good state a `WAIT_IDLE` ends: after `ticksLeft` steps, all of them ticks, BUSY is 0. -/
def Obligations.WaitIdleEnds : Prop :=
  ∀ (s : State) (rest : List Move), s.Inv → s.schedule = .waitIdle :: rest →
    ∃ t, Host.Core.run Sys2Proof.core s.ticksLeft s = .next t ∧ t.busy = false ∧ t.schedule = .waitIdle :: rest ∧
      t.trace.length = s.trace.length + s.ticksLeft

/-- R65: the bit sequence of a frame is recovered from its trace, whatever follows, on every build whose symbols' low parts are shorter
than the low-hold (10 ms against a bit period of about 1.25 µs, R14). -/
def Obligations.FrameReadsBack : Prop :=
  ∀ (b : Build) (bits after : List Bool), b.legal = true → b.t2 + b.t3 < b.resetTicks →
    readFrame b 0 0 (bits.flatMap (sym b) ++ List.replicate b.resetTicks false ++ after) = some bits

/-! ## Wire patterns -/

/-- R63, R110: SYM0 is T1 ticks high and T2 + T3 low, SYM1 is T1 + T2 high and T3 low; the head bit is spent, and after the last bit the
low-hold begins (R114). That the pattern runs to its end from where TCK stands in it is the model's (log 11). Nothing else changes. -/
def Obligations.SymbolsOnTheLine : Prop :=
  ∀ (s : State) (tl : List Bool), s.seq.phase = .shift →
    (s.seq.txq = false :: tl → exec .sym0 s = .next { s with
      seq := if tl = [] then { phase := .latch, txq := [], tck := 0, hold := s.build.resetTicks }
        else { phase := .shift, txq := tl, tck := 0, hold := 0 }
      trace := s.trace ++ (List.replicate s.build.t1 true ++
        List.replicate (s.build.t2 + s.build.t3) false).drop s.seq.tck }) ∧
    (s.seq.txq = true :: tl → exec .sym1 s = .next { s with
      seq := if tl = [] then { phase := .latch, txq := [], tck := 0, hold := s.build.resetTicks }
        else { phase := .shift, txq := tl, tck := 0, hold := 0 }
      trace := s.trace ++ (List.replicate (s.build.t1 + s.build.t2) true ++
        List.replicate s.build.t3 false).drop s.seq.tck })

/-- R40, R64: WORD24 is the 24 symbols of the word, bit 23 first and bit 0 last, with no gap between them; after the last bit of the frame
the low-hold begins (R114). That the word runs to its end as one instruction, from where TCK stands in its first symbol, is the model's
(log 11). Nothing else changes. -/
def Obligations.WordOnTheLine : Prop :=
  ∀ (s : State) (w : WireWord) (tl : List Bool), s.seq.phase = .shift →
    s.seq.txq = (List.range 24).map (fun k => w.getLsbD (23 - k)) ++ tl →
      exec (.word24 w) s = .next { s with
        seq := if tl = [] then { phase := .latch, txq := [], tck := 0, hold := s.build.resetTicks }
          else { phase := .shift, txq := tl, tck := 0, hold := 0 }
        trace := s.trace ++ ((List.range 24).flatMap fun k => sym s.build (w.getLsbD (23 - k))).drop s.seq.tck }

/-- R63, R112: RESET is low ticks, RESET_TICKS of them from the start of the low-hold (R63 admits more: idle ticks add them), and then the
block is IDLE. That it runs the HOLD ticks still to come at once is the model's (log 11). Nothing else changes. -/
def Obligations.LowHoldOnTheLine : Prop :=
  ∀ s : State, s.seq.phase = .latch →
    exec .reset s = .next { s with
      seq := { phase := .idle, txq := [], tck := 0, hold := 0 }, trace := s.trace ++ List.replicate s.seq.hold false }

/-- R121, R118 (log 11): a wire pattern that is not at the sequencer's position is refused: nothing but the sequencer drives DOUT. -/
def Obligations.PatternsOffPositionAreRefused : Prop :=
  ∀ s : State,
    (s.seq.phase ≠ .shift → ∀ w, exec .sym0 s = .refused .offPattern ∧ exec .sym1 s = .refused .offPattern ∧
      exec (.word24 w) s = .refused .offPattern) ∧
    (s.seq.phase ≠ .latch → exec .reset s = .refused .offPattern) ∧
    (s.seq.txq.head? ≠ some false → exec .sym0 s = .refused .offPattern) ∧
    (s.seq.txq.head? ≠ some true → exec .sym1 s = .refused .offPattern) ∧
    ∀ w, s.seq.txq.take 24 ≠ bits24 w → exec (.word24 w) s = .refused .offPattern

/-- R115: in every good state, running a wire pattern at once is running the ticks of it: the waveform's contract (R112) refines the
machine's (R114). -/
def Obligations.PatternsAreTheirTicks : Prop :=
  ∀ s t : State, s.Inv →
    (exec .sym0 s = .next t → t = ticks (s.build.tb - s.seq.tck) s) ∧
    (exec .sym1 s = .next t → t = ticks (s.build.tb - s.seq.tck) s) ∧
    (∀ w, exec (.word24 w) s = .next t → t = ticks (24 * s.build.tb - s.seq.tck) s) ∧
    (exec .reset s = .next t → t = ticks s.seq.hold s)

/-! ## Errors and refusals -/

/-- R181 (a) to (d): what is refused, of the eight commands; and, since there is one issuing agent (R52) and the front end's one command is
SEND (R70, R111), any other command of the front end (log 10). -/
def Obligations.RefusedCommands : Prop :=
  ∀ (s : State) (i : Instr), i.format = .cmd →
    (s.issuer = .secondHost → exec i s = .refused .secondHost) ∧
    (∀ bits, s.issuer = .host → exec (.send bits) s = .refused .sendFromHost) ∧
    (s.issuer = .frontEnd → (∀ bits, i ≠ .send bits) → exec i s = .refused .frontEnd) ∧
    (s.issuer = .host → s.life = .unconfigured → (∀ n pin brt, i ≠ .configure n pin brt) → (∀ bits, i ≠ .send bits) →
      exec i s = .refused .unconfigured) ∧
    (∀ bits, s.issuer = .frontEnd → s.life = .unconfigured → exec (.send bits) s = .refused .unconfigured) ∧
    (∀ n pin brt p, s.issuer = .host → s.life = .ready p → exec (.configure n pin brt) s = .refused .alreadyConfigured)

/-- R182: a command of the host on a constructed strip always completes: it succeeds or errs, whatever its operands. -/
def Obligations.HostCommandsAlwaysComplete : Prop :=
  ∀ (s : State) (p : Strip) (i : Instr), s.issuer = .host → s.life = .ready p → i.format = .cmd →
    (∀ n pin brt, i ≠ .configure n pin brt) → (∀ bits, i ≠ .send bits) →
      ∃ t, exec i s = .next t ∧ t.rsp ≠ none ∧ t.trace = s.trace ∧ t.build = s.build

/-- R176: a command that raises an error changes nothing but its ESR bit and the response. -/
def Obligations.ErrorsChangeOnlyEsrAndTheResponse : Prop :=
  ∀ (s t : State) (i : Instr) (e : BlockError), i.format = .cmd → exec i s = .next t → t.rsp = some (.error e) →
    t = { s with esr := s.esr ||| e.esrBit, rsp := some (.error e) }

/-- R171, with the recorded values of R170: which command can raise what, complete, in every good state. -/
def Obligations.WhichCommandRaisesWhat : Prop :=
  ∀ (s t : State) (i : Instr) (e : BlockError), s.Inv → i.format = .cmd → exec i s = .next t → t.rsp = some (.error e) →
    (∃ n pin brt, i = .configure n pin brt ∧
      (e = .configuration (.ledCount 0#32) ∨ e = .configuration (.brightness (optionOr s.build.brtDefault brt)))) ∨
    (∃ index color, i = .set index color ∧ e = .indexOutOfRange index) ∨
    (∃ index, i = .get index ∧ e = .indexOutOfRange index) ∨
    (∃ buffer brt, i = .encode buffer brt ∧
      ((∃ p, s.life = .ready p ∧ e = .configuration (.length buffer.length p.ledCount)) ∨
        e = .configuration (.brightness brt) ∨ e = .hardware .busy ∨ e = .hardware .unavailable)) ∨
    (i = .flush ∧ (e = .hardware .busy ∨ e = .hardware .unavailable)) ∨
    (∃ bits, i = .send bits ∧ (e = .hardware .busy ∨ e = .hardware .unavailable))

/-- R25, R177: ESR bits accumulate, and only a reset clears one; a bit is set only with the error of its kind. -/
def Obligations.EsrBitsAreSticky : Prop :=
  ∀ s t : State, s.noReset → step s = .next t →
    s.esr &&& t.esr = s.esr ∧ (t.esr = s.esr ∨ ∃ e, t.rsp = some (.error e) ∧ t.esr = s.esr ||| e.esrBit)

/-! ## Whole-machine rules -/

/-- R21: every step keeps the sequencer's invariant, with the legality of the build and of the strip (canonical PixelBuffer, N >= 1, legal
brightness). -/
def Obligations.StepKeepsTheInvariant : Prop :=
  ∀ s t : State, s.Inv → step s = .next t → t.Inv

/-- The machine right after reset meets the invariant, and the record of a low-hold. -/
def Obligations.ResetMeetsTheInvariant : Prop := State.reset.Inv ∧ State.reset.LowHeld

/-- R14, R28: the build constants and open parameters are no registers: no step changes them. -/
def Obligations.BuildNeverChanges : Prop := ∀ s t : State, step s = .next t → t.build = s.build

/-- R118: the transitions of PHASE, complete. Without a reset, SHIFT goes only to LATCH, LATCH only to IDLE, and IDLE is left only by an
accepted SEND, ENCODE or FLUSH, to SHIFT with bits to send and to LATCH with none. -/
def Obligations.PhaseTransitions : Prop :=
  ∀ s t : State, s.Inv → s.noReset → step s = .next t → s.seq.phase ≠ t.seq.phase →
    (s.seq.phase = .idle ∧ t.rsp = some .ok ∧
      (∃ who bytes rest i, s.schedule = .command who bytes :: rest ∧ decodeCommand bytes = .ok i ∧
        (i = .flush ∨ (∃ buffer brt, i = .encode buffer brt) ∨ ∃ bits, i = .send bits)) ∧
      ((t.seq.phase = .shift ∧ t.seq.txq ≠ []) ∨ (t.seq.phase = .latch ∧ t.seq.txq = []))) ∨
    (s.seq.phase = .shift ∧ t.seq = { phase := .latch, txq := [], tck := 0, hold := s.build.resetTicks }) ∨
    (s.seq.phase = .latch ∧ t.seq = { phase := .idle, txq := [], tck := 0, hold := 0 })

/-- R22, R53, R56: TXQ is a snapshot. While a frame is being shifted out, whatever the host does, TXQ only loses bits from its head. -/
def Obligations.QueuedBitsAreNeverChanged : Prop :=
  ∀ s t : State, s.noReset → s.seq.phase = .shift → step s = .next t → ∃ sent, s.seq.txq = sent ++ t.seq.txq

/-- R210, R121, R56: no command touches the sequencer while BUSY = 1, PixelBuffer commands included. -/
def Obligations.CommandsNeverTouchABusySequencer : Prop :=
  ∀ (s t : State) (i : Instr), i.format = .cmd → s.busy = true → exec i s = .next t → t.seq = s.seq ∧ t.trace = s.trace

/-- R112, R119: every step without a reset keeps the record of the low-hold, and whenever BUSY returns to 0 the line has been low for the
last RESET_TICKS ticks. -/
def Obligations.BusyEndsAfterTheLowHold : Prop :=
  ∀ s t : State, s.Inv → s.LowHeld → s.noReset → step s = .next t →
    t.LowHeld ∧ (s.busy = true → t.busy = false → List.replicate s.build.resetTicks false <:+ t.trace)

/-- The record of the line is the environment's (log 13): the block never reads it. -/
def Obligations.TheRecordIsNeverRead : Prop :=
  ∀ (s : State) (record : List Bool),
    (∀ t, step s = .next t → ∃ l, t.trace = s.trace ++ l ∧ step { s with trace := record } = .next { t with trace := record ++ l }) ∧
    (∀ r, step s = .refused r → step { s with trace := record } = .refused r)

/-- R12: no rule reads CFG.OUT_PIN: with another pin a step does the same and leaves the other pin. -/
def Obligations.TheOutputPinIsNeverRead : Prop :=
  ∀ (s t : State) (p : Strip) (pin : PinId), s.noReset → s.life = .ready p → step s = .next t →
    ∃ q : Strip, t.life = .ready q ∧
      step { s with life := .ready { p with outputPin := pin } } = .next { t with life := .ready { q with outputPin := pin } }

/-! ## Encodings -/

/-- Every instruction of every format decodes from its code, every operand at every value, on every legal build (R60, R61, R63, R70). The
operand bytes of a command are the model's (log 3). -/
def Obligations.DecodeOfEncode : Prop := ∀ (b : Build) (i : Instr), b.legal = true → decode b (encode b i) = .ok i

/-- Every byte string that is a command is the one encoding of it (log 3). -/
def Obligations.EncodeOfDecode : Prop :=
  ∀ (bytes : List Byte) (i : Instr), decodeCommand bytes = .ok i → encodeCommand i = bytes

/-- R70, R63, R61: words written out from the spec's encodings: the tags, with operand bytes by hand (the model's, log 3), the table's symbol
patterns and the word 0x140A1E of R61. -/
def Obligations.WordsDecodeAsTheSpecWritesThem : Prop :=
  decodeCommand [0b000#8] = .ok (.configure none none none) ∧
  decodeCommand [0b001#8, 4#8, 10#8, 20#8, 30#8] = .ok (.set 2 ⟨10#8, 20#8, 30#8⟩) ∧
  decodeCommand [0b010#8, 1#8] = .ok (.get (-1)) ∧
  decodeCommand [0b011#8, 255#8, 0#8, 0#8] = .ok (.fill ⟨255#8, 0#8, 0#8⟩) ∧
  decodeCommand [0b100#8] = .ok .clear ∧ decodeCommand [0b101#8] = .ok .flush ∧
  decodeCommand [0b110#8, 1#8, 1#8, 2#8, 3#8, 0x00#8, 0x00#8, 0x00#8, 0x3F#8] = .ok (.encode [⟨1#8, 2#8, 3#8⟩] 0x3F000000#32) ∧
  decodeCommand [0b111#8, 2#8, 1#8, 0#8] = .ok (.send [true, false]) ∧
  decode .reference (.levels [true, true, true, true, true, true, true, false, false, false]) = .ok .sym1 ∧
  decode .reference (.levels [true, true, false, false, false, false, false, false, false, false]) = .ok .sym0 ∧
  decode .reference (.word 0b000101000000101000011110#24) = .ok (.word24 0x140A1E#24)

/-! ## The host's software -/

/-- R143, R144: the k-th colour of a fade is from + k x delta in each channel, and lies between the ends. That delta is rounded toward zero
is the spec's reading (U9, log 21). -/
def Obligations.FadeColoursStayBetweenTheEnds : Prop :=
  ∀ (start stop : Color) (steps k : Nat), 1 ≤ k → k ≤ steps →
    ((fadeColor start stop steps k).r.toNat : Int) = start.r.toNat + k * ((stop.r.toNat - start.r.toNat : Int).tdiv steps) ∧
    ((fadeColor start stop steps k).g.toNat : Int) = start.g.toNat + k * ((stop.g.toNat - start.g.toNat : Int).tdiv steps) ∧
    ((fadeColor start stop steps k).b.toNat : Int) = start.b.toNat + k * ((stop.b.toNat - start.b.toNat : Int).tdiv steps) ∧
    min start.r.toNat stop.r.toNat ≤ (fadeColor start stop steps k).r.toNat ∧
    (fadeColor start stop steps k).r.toNat ≤ max start.r.toNat stop.r.toNat ∧
    min start.g.toNat stop.g.toNat ≤ (fadeColor start stop steps k).g.toNat ∧
    (fadeColor start stop steps k).g.toNat ≤ max start.g.toNat stop.g.toNat ∧
    min start.b.toNat stop.b.toNat ≤ (fadeColor start stop steps k).b.toNat ∧
    (fadeColor start stop steps k).b.toNat ≤ max start.b.toNat stop.b.toNat

/-- R145, R146: a fade_in of steps > 0 shows its colours in order, each as FILL, FLUSH, WAIT_IDLE, WAIT; a fade_out shows BLACK once more.
The bytes of the commands and BLACK's channels are the model's (log 3, log 4). -/
def Obligations.FadesAsCommands : Prop :=
  ∀ (start stop : Color) (steps delay : Nat), 0 < steps →
    ∃ moves, fadeIn start stop steps delay = some moves ∧
      moves = (List.range steps).flatMap (fun j =>
        [.command .host (encodeCommand (.fill (fadeColor start stop steps (j + 1)))), .command .host (encodeCommand .flush),
          .waitIdle, .wait delay]) ∧
      fadeOut start stop steps delay = some (moves ++
        [.command .host (encodeCommand (.fill ⟨0#8, 0#8, 0#8⟩)), .command .host (encodeCommand .flush), .waitIdle, .wait delay])

/-- R150: wheel(0), wheel(85) and every position outside [0, 255], which is BLACK, Color(0, 0, 0) (log 4). -/
def Obligations.WheelStatedValues : Prop :=
  wheel 0 = ⟨255#8, 0#8, 0#8⟩ ∧ wheel 85 = ⟨0#8, 255#8, 0#8⟩ ∧
  ∀ p : Int, (p < 0 ∨ 255 < p) → wheel p = ⟨0#8, 0#8, 0#8⟩

/-! ## One issuing agent -/

/-- R52, R70, R111: the command stream is one host's. A step that takes a command and answers a next state took the host's, and no SEND, or
took a SEND of the block's own front end. -/
def Obligations.CommandsComeFromOneHost : Prop :=
  ∀ (s t : State) (who : Issuer) (bytes : List Byte) (rest : List Move) (i : Instr),
    s.schedule = .command who bytes :: rest → decodeCommand bytes = .ok i → step s = .next t →
      (who = .host ∧ ∀ bits, i ≠ .send bits) ∨ (who = .frontEnd ∧ ∃ bits, i = .send bits)
end

