-- ==== Sys2Proof/Laws/Arithmetic.lean ====
section
/-! SUPPORT. What the binary32 operations of Machine/Arithmetic.lean give: the value of a finite pattern, their order, and the rounding as
the nearest value, ties to even (R98). -/
namespace Sys2Proof.Machine

/-- A finite pattern by its exponent and fraction. -/
theorem magnitude_ofNat {e f : Nat} (he : e < 255) (hf : f < 2 ^ 23) :
    magnitude (BitVec.ofNat 32 (e * 2 ^ 23 + f)) = (if e = 0 then f else 2 ^ 23 + f) * 2 ^ (e - 1) := by
  have h32 : (e * 2 ^ 23 + f) % 2 ^ 32 = e * 2 ^ 23 + f := by omega
  have h1 : (e * 2 ^ 23 + f) / 2 ^ 23 % 256 = e := by omega
  have h2 : (e * 2 ^ 23 + f) % 2 ^ 23 = f := by omega
  simp only [magnitude, significand, exponentField, fractionField, BitVec.toNat_ofNat, h32, h1, h2]

/-- A carry out of the fraction is the next exponent: with n up to 2^24 and x the power of the last bit, the pattern x 2^23 + n is n 2^x. -/
theorem magnitude_pattern {x n : Nat} (hx : x = 0 ∨ 2 ^ 23 ≤ n) (hn : n ≤ 2 ^ 24) (hlt : x * 2 ^ 23 + n < 0x7F800000) :
    magnitude (BitVec.ofNat 32 (x * 2 ^ 23 + n)) = n * 2 ^ x := by
  by_cases h0 : n < 2 ^ 23
  · obtain rfl : x = 0 := by omega
    rw [magnitude_ofNat (by omega) h0]; simp
  by_cases h1 : n < 2 ^ 24
  · rw [show x * 2 ^ 23 + n = (x + 1) * 2 ^ 23 + (n - 2 ^ 23) by omega, magnitude_ofNat (by omega) (by omega),
      if_neg (by omega), Nat.add_sub_cancel, Nat.add_sub_of_le (by omega)]
  · obtain rfl : n = 2 ^ 24 := by omega
    rw [show x * 2 ^ 23 + 2 ^ 24 = (x + 2) * 2 ^ 23 + 0 by omega, magnitude_ofNat (by omega) (by omega), if_neg (by omega)]
    rw [show x + 2 - 1 = x + 1 by omega, Nat.pow_succ]; omega

/-- `roundQuotient`, whole: within half a unit of the quotient, and even at half a unit. -/
theorem roundQuotient_spec (p q : Nat) (hq : 0 < q) :
    2 * (roundQuotient p q * q) ≤ 2 * p + q ∧ 2 * p ≤ 2 * (roundQuotient p q * q) + q ∧
    (2 * (roundQuotient p q * q) = 2 * p + q ∨ 2 * p = 2 * (roundQuotient p q * q) + q → roundQuotient p q % 2 = 0) := by
  have hp := Nat.div_add_mod p q
  have hr := Nat.mod_lt p hq
  rw [Nat.mul_comm] at hp
  unfold roundQuotient
  simp only
  split
  · rw [Nat.add_mul]; omega
  · omega

/-- No multiple of `q` is nearer to `p`, and the quotient is even when another is as near. -/
theorem roundQuotient_near (p q m : Nat) (hq : 0 < q) :
    ((roundQuotient p q * q : Nat) - p : Int).natAbs ≤ ((m * q : Nat) - p : Int).natAbs ∧
    (m ≠ roundQuotient p q → ((roundQuotient p q * q : Nat) - p : Int).natAbs = ((m * q : Nat) - p : Int).natAbs →
      roundQuotient p q % 2 = 0) := by
  obtain ⟨h1, h2, h3⟩ := roundQuotient_spec p q hq
  rcases Nat.lt_trichotomy m (roundQuotient p q) with h | h | h
  · have := Nat.mul_le_mul_right q (show m + 1 ≤ roundQuotient p q from h)
    rw [Nat.add_mul] at this
    omega
  · subst h; simp
  · have := Nat.mul_le_mul_right q (show roundQuotient p q + 1 ≤ m from h)
    rw [Nat.add_mul] at this
    omega

theorem roundQuotient_mono {p p' q : Nat} (hq : 0 < q) (h : p ≤ p') : roundQuotient p q ≤ roundQuotient p' q := by
  obtain ⟨h1, h2, h3⟩ := roundQuotient_spec p q hq
  obtain ⟨h1', h2', h3'⟩ := roundQuotient_spec p' q hq
  by_contra hlt
  have := Nat.mul_le_mul_right q (show roundQuotient p' q + 1 ≤ roundQuotient p q by omega)
  rw [Nat.add_mul] at this
  have : p = p' := by omega
  subst this; omega

/-- The power of two of the last of 24 significant bits, at least 0. -/
def lastBit (p k : Nat) : Nat := p.log2 - (k + 23)

/-- The significand of the rounded value. -/
def roundedSignificand (p k : Nat) : Nat := roundQuotient p (2 ^ (k + lastBit p k))

theorem roundedSignificand_le (p k : Nat) : roundedSignificand p k ≤ 2 ^ 24 := by
  obtain ⟨h1, -, -⟩ := roundQuotient_spec p (2 ^ (k + lastBit p k)) (Nat.two_pow_pos _)
  have hp : p < 2 ^ (k + lastBit p k) * 2 ^ 24 := by
    rw [← Nat.pow_add]
    exact Nat.lt_of_lt_of_le Nat.lt_log2_self (Nat.pow_le_pow_right (by omega) (by unfold lastBit; omega))
  by_contra hc
  have := Nat.mul_le_mul_right (2 ^ (k + lastBit p k)) (show 2 ^ 24 + 1 ≤ roundedSignificand p k by omega)
  unfold roundedSignificand at this
  have h0 := Nat.two_pow_pos (k + lastBit p k)
  rw [Nat.add_mul] at this
  omega

theorem le_roundedSignificand {p k : Nat} (h : 0 < lastBit p k) : 2 ^ 23 * 2 ^ (k + lastBit p k) ≤ p ∧ 2 ^ 23 ≤ roundedSignificand p k := by
  obtain ⟨-, h2, -⟩ := roundQuotient_spec p (2 ^ (k + lastBit p k)) (Nat.two_pow_pos _)
  have hp0 : p ≠ 0 := by rintro rfl; simp [lastBit] at h
  have hp : 2 ^ 23 * 2 ^ (k + lastBit p k) ≤ p := by
    rw [← Nat.pow_add]
    exact Nat.le_trans (Nat.pow_le_pow_right (by omega) (by unfold lastBit at *; omega)) (Nat.log2_self_le hp0)
  refine ⟨hp, ?_⟩
  by_contra hc
  have := Nat.mul_le_mul_right (2 ^ (k + lastBit p k)) (show roundedSignificand p k + 1 ≤ 2 ^ 23 by omega)
  unfold roundedSignificand at this
  have h0 := Nat.two_pow_pos (k + lastBit p k)
  rw [Nat.add_mul] at this
  omega

/-- What `roundToF32` gives below the overflow threshold. -/
theorem magnitude_roundToF32 {p k : Nat} (h : lastBit p k * 2 ^ 23 + roundedSignificand p k < 0x7F800000) :
    magnitude (roundToF32 false p k) = roundedSignificand p k * 2 ^ lastBit p k := by
  have := magnitude_pattern (x := lastBit p k) (n := roundedSignificand p k)
    (by rcases Nat.eq_zero_or_pos (lastBit p k) with h | h
        · exact .inl h
        · exact .inr (le_roundedSignificand h).2) (roundedSignificand_le p k) h
  rw [← this]
  simp only [roundToF32]
  rw [show p.log2 - (k + 23) = lastBit p k from rfl, show roundQuotient p (2 ^ (k + lastBit p k)) = roundedSignificand p k from rfl,
    Nat.min_eq_left (by omega)]
  simp

/-- Every finite pattern is m 2^y with m below 2^24, and at least 2^23 unless y = 0; and it is the pattern y 2^23 + m. -/
theorem magnitude_form {z : F32} (hz : z.toNat < 0x7F800000) :
    ∃ m y, m < 2 ^ 24 ∧ (y = 0 ∨ 2 ^ 23 ≤ m) ∧ magnitude z = m * 2 ^ y ∧ z.toNat = y * 2 ^ 23 + m := by
  have hz' := z.isLt
  by_cases he : exponentField z = 0
  · refine ⟨fractionField z, 0, ?_, .inl rfl, ?_, ?_⟩
    · unfold fractionField; omega
    · simp [magnitude, significand, he]
    · unfold exponentField at he; unfold fractionField; omega
  · refine ⟨2 ^ 23 + fractionField z, exponentField z - 1, ?_, .inr (by omega), ?_, ?_⟩
    · unfold fractionField; omega
    · simp [magnitude, significand, he]
    · unfold exponentField at *; unfold fractionField; omega

/-- Finite non-negative patterns are ordered as their values. -/
theorem magnitude_lt {z w : F32} (hz : z.toNat < 0x7F800000) (hw : w.toNat < 0x7F800000) (h : z.toNat < w.toNat) :
    magnitude z < magnitude w := by
  obtain ⟨m, y, hm, hmy, e1, e2⟩ := magnitude_form hz
  obtain ⟨m', y', hm', hmy', e1', e2'⟩ := magnitude_form hw
  rw [e1, e1']
  rcases Nat.lt_trichotomy y y' with hy | rfl | hy
  · calc m * 2 ^ y < 2 ^ 24 * 2 ^ y := Nat.mul_lt_mul_of_pos_right hm (Nat.two_pow_pos _)
      _ = 2 ^ 23 * 2 ^ (y + 1) := by rw [Nat.pow_succ]; omega
      _ ≤ 2 ^ 23 * 2 ^ y' := Nat.mul_le_mul_left _ (Nat.pow_le_pow_right (by omega) hy)
      _ ≤ m' * 2 ^ y' := Nat.mul_le_mul_right _ (by omega)
  · exact Nat.mul_lt_mul_of_pos_right (by omega) (Nat.two_pow_pos _)
  · omega

/-- A finite value, in the unit of the last bit of the rounding: a multiple of it, or below everything the rounding can reach. -/
theorem magnitude_multiple {z : F32} (hz : z.toNat < 0x7F800000) (x : Nat) :
    (∃ n, magnitude z = n * 2 ^ x) ∨ (0 < x ∧ magnitude z < 2 ^ 23 * 2 ^ x) := by
  obtain ⟨m, y, hm, hmy, e1, e2⟩ := magnitude_form hz
  by_cases hy : x ≤ y
  · exact .inl ⟨m * 2 ^ (y - x), by rw [e1, Nat.mul_assoc, ← Nat.pow_add]; congr 2; omega⟩
  · refine .inr ⟨by omega, ?_⟩
    rw [e1]
    calc m * 2 ^ y < 2 ^ 24 * 2 ^ y := Nat.mul_lt_mul_of_pos_right hm (Nat.two_pow_pos _)
      _ = 2 ^ 23 * 2 ^ (y + 1) := by rw [Nat.pow_succ]; omega
      _ ≤ 2 ^ 23 * 2 ^ x := Nat.mul_le_mul_left _ (Nat.pow_le_pow_right (by omega) (by omega))

/-- The pattern `roundToF32` gives below the overflow threshold. -/
theorem toNat_roundToF32 {p k : Nat} (h : lastBit p k * 2 ^ 23 + roundedSignificand p k < 0x7F800000) :
    (roundToF32 false p k).toNat = lastBit p k * 2 ^ 23 + roundedSignificand p k := by
  simp only [roundToF32]
  rw [show p.log2 - (k + 23) = lastBit p k from rfl, show roundQuotient p (2 ^ (k + lastBit p k)) = roundedSignificand p k from rfl,
    Nat.min_eq_left (by omega)]
  simp; omega

/-- The rounded value against any finite value, in units of 2^-(149 + k). -/
theorem roundedSignificand_near (p k : Nat) {z : F32} (hz : z.toNat < 0x7F800000) :
    ((roundedSignificand p k * 2 ^ (k + lastBit p k) : Nat) - p : Int).natAbs ≤ ((magnitude z * 2 ^ k : Nat) - p : Int).natAbs ∧
    (magnitude z ≠ roundedSignificand p k * 2 ^ lastBit p k →
      ((roundedSignificand p k * 2 ^ (k + lastBit p k) : Nat) - p : Int).natAbs = ((magnitude z * 2 ^ k : Nat) - p : Int).natAbs →
      roundedSignificand p k % 2 = 0) := by
  rcases magnitude_multiple hz (lastBit p k) with ⟨n, hn⟩ | ⟨hx, hlt⟩
  · have e : magnitude z * 2 ^ k = n * 2 ^ (k + lastBit p k) := by rw [hn, Nat.mul_assoc, ← Nat.pow_add, Nat.add_comm k]
    obtain ⟨h1, h2⟩ := roundQuotient_near p (2 ^ (k + lastBit p k)) n (Nat.two_pow_pos _)
    rw [e]
    refine ⟨h1, fun hne => h2 ?_⟩
    rintro rfl
    exact hne hn
  · have h1 := (roundQuotient_near p (2 ^ (k + lastBit p k)) (2 ^ 23) (Nat.two_pow_pos _)).1
    have h2 := (le_roundedSignificand hx).1
    have h3 := Nat.mul_lt_mul_of_pos_right hlt (Nat.two_pow_pos k)
    rw [Nat.mul_assoc, ← Nat.pow_add, Nat.add_comm _ k] at h3
    rw [show roundQuotient p (2 ^ (k + lastBit p k)) = roundedSignificand p k from rfl] at h1
    omega

/-- A value up to the largest finite one does not overflow. -/
theorem no_overflow {p k : Nat} (h : p ≤ (2 ^ 24 - 1) * 2 ^ (253 + k)) : lastBit p k * 2 ^ 23 + roundedSignificand p k < 0x7F800000 := by
  have hle := roundedSignificand_le p k
  have hx : lastBit p k ≤ 253 := by
    by_cases hp : p = 0
    · subst hp; simp [lastBit]
    have : p.log2 < 24 + (253 + k) := by
      rw [Nat.log2_lt hp, Nat.pow_add]
      exact Nat.lt_of_le_of_lt h (Nat.mul_lt_mul_of_pos_right (by omega) (Nat.two_pow_pos _))
    unfold lastBit; omega
  rcases Nat.lt_or_ge (lastBit p k) 253 with h' | h'
  · omega
  · have hx' : lastBit p k = 253 := by omega
    obtain ⟨h1, h2, h3⟩ := roundQuotient_spec p (2 ^ (k + lastBit p k)) (Nat.two_pow_pos _)
    rw [hx', Nat.add_comm k] at h1
    have : roundedSignificand p k ≤ 2 ^ 24 - 1 := by
      by_contra hc
      have := Nat.mul_le_mul_right (2 ^ (253 + k)) (show 2 ^ 24 - 1 + 1 ≤ roundedSignificand p k by omega)
      unfold roundedSignificand at this
      have h0 := Nat.two_pow_pos (253 + k)
      rw [Nat.add_mul] at this
      rw [hx', Nat.add_comm k] at this
      omega
    omega

theorem signBit_finite {x : F32} (h : x.toNat < 0x7F800000) : signBit x = false := by
  simp [signBit, BitVec.msb_eq_decide]; omega

/-- A channel converts exactly (R93). -/
theorem f32OfChannel_spec : ∀ c : BitVec 8, magnitude (f32OfChannel c) = c.toNat * 2 ^ 149 ∧ (f32OfChannel c).toNat < 0x7F800000 := by decide

end Sys2Proof.Machine
end

