-- ==== Sys2Proof/Laws/State.lean ====
section
/-! SUPPORT. What each field of the state is after each update, so that no later proof unfolds a record update. -/
namespace Sys2Proof.Machine

@[simp] theorem tick_build (s : State) : (tick s).build = s.build := rfl
@[simp] theorem tick_life (s : State) : (tick s).life = s.life := rfl
@[simp] theorem tick_seq (s : State) : (tick s).seq = s.seq.tick s.build := rfl
@[simp] theorem tick_esr (s : State) : (tick s).esr = s.esr := rfl
@[simp] theorem tick_rsp (s : State) : (tick s).rsp = s.rsp := rfl
@[simp] theorem tick_periphAvail (s : State) : (tick s).periphAvail = s.periphAvail := rfl
@[simp] theorem tick_issuer (s : State) : (tick s).issuer = s.issuer := rfl
@[simp] theorem tick_schedule (s : State) : (tick s).schedule = s.schedule := rfl
@[simp] theorem tick_trace (s : State) : (tick s).trace = s.trace ++ [s.dout] := rfl

@[simp] theorem resetBlock_build (s : State) : (resetBlock s).build = s.build := rfl
@[simp] theorem resetBlock_life (s : State) : (resetBlock s).life = .unconfigured := rfl
@[simp] theorem resetBlock_seq (s : State) : (resetBlock s).seq = .idle := rfl
@[simp] theorem resetBlock_esr (s : State) : (resetBlock s).esr = 0b000#3 := rfl
@[simp] theorem resetBlock_rsp (s : State) : (resetBlock s).rsp = none := rfl
@[simp] theorem resetBlock_periphAvail (s : State) : (resetBlock s).periphAvail = s.periphAvail := rfl
@[simp] theorem resetBlock_issuer (s : State) : (resetBlock s).issuer = .host := rfl
@[simp] theorem resetBlock_schedule (s : State) : (resetBlock s).schedule = s.schedule := rfl
@[simp] theorem resetBlock_trace (s : State) : (resetBlock s).trace = s.trace := rfl

@[simp] theorem strip_write_ledCount (b : Build) (p : Strip) (i : Nat) (c : Color) :
    (p.write b i c).ledCount = p.ledCount := rfl
@[simp] theorem strip_write_outputPin (b : Build) (p : Strip) (i : Nat) (c : Color) :
    (p.write b i c).outputPin = p.outputPin := rfl
@[simp] theorem strip_write_brightness (b : Build) (p : Strip) (i : Nat) (c : Color) :
    (p.write b i c).brightness = p.brightness := rfl
@[simp] theorem strip_write_pb (b : Build) (p : Strip) (i : Nat) (c : Color) :
    (p.write b i c).pb = Memory.write (initialColor b) i c p.pb := rfl
@[simp] theorem strip_fillWith_ledCount (b : Build) (p : Strip) (c : Color) :
    (p.fillWith b c).ledCount = p.ledCount := rfl
@[simp] theorem strip_fillWith_outputPin (b : Build) (p : Strip) (c : Color) :
    (p.fillWith b c).outputPin = p.outputPin := rfl
@[simp] theorem strip_fillWith_brightness (b : Build) (p : Strip) (c : Color) :
    (p.fillWith b c).brightness = p.brightness := rfl
@[simp] theorem strip_fillWith_pb (b : Build) (p : Strip) (c : Color) :
    (p.fillWith b c).pb = Memory.fill (initialColor b) p.ledCount.toNat c := rfl

@[simp] theorem load_nil (b : Build) : Sequencer.load b [] = ⟨.latch, [], 0, b.resetTicks⟩ := rfl
@[simp] theorem load_cons (b : Build) (v : Bool) (rest : List Bool) :
    Sequencer.load b (v :: rest) = ⟨.shift, v :: rest, 0, 0⟩ := rfl
@[simp] theorem load_txq (b : Build) (bits : List Bool) : (Sequencer.load b bits).txq = bits := by cases bits <;> rfl
@[simp] theorem load_tck (b : Build) (bits : List Bool) : (Sequencer.load b bits).tck = 0 := by cases bits <;> rfl

@[simp] theorem idle_phase : Sequencer.idle.phase = .idle := rfl
@[simp] theorem idle_txq : Sequencer.idle.txq = [] := rfl
@[simp] theorem idle_tck : Sequencer.idle.tck = 0 := rfl
@[simp] theorem idle_hold : Sequencer.idle.hold = 0 := rfl

@[simp] theorem optionOr_none {α : Type} (d : α) : optionOr d none = d := rfl
@[simp] theorem optionOr_some {α : Type} (d x : α) : optionOr d (some x) = x := rfl

end Sys2Proof.Machine
end

