-- ==== Sys2Proof/Laws/Memory.lean ====
section
/-! SUPPORT. The PixelBuffer: what a read gives after a write or a fill, and that both keep the canonical form. -/
namespace Sys2Proof.Machine

variable {init : Nat → Color} {n : Nat}

@[simp] theorem memory_read_nil (i : Nat) : Memory.read init [] i = init i := rfl

theorem memory_read_cons (j : Nat) (d : Color) (m : Memory) (i : Nat) :
    Memory.read init ((j, d) :: m) i = if i = j then d else Memory.read init m i := by
  by_cases h : i = j
  · subst h; simp [Memory.read]
  · have : (i == j) = false := by simpa using h
    simp [Memory.read, List.lookup, this, h]

theorem memory_wf_nil : Memory.wf init n [] = true := by simp [Memory.wf]

/-- The canonical form of a non-empty memory, head and rest. -/
theorem memory_wf_cons (j : Nat) (d : Color) (m : Memory) :
    Memory.wf init n ((j, d) :: m) = true ↔
      (∀ p ∈ m, j < p.1) ∧ j < n ∧ d ≠ init j ∧ Memory.wf init n m = true := by
  simp only [Memory.wf, List.pairwise_cons, List.all_cons, Bool.and_eq_true, decide_eq_true_eq]
  tauto

/-- An index below every listed one reads as unlisted. -/
theorem memory_read_below {m : Memory} {i : Nat} (h : ∀ p ∈ m, i < p.1) : Memory.read init m i = init i := by
  induction m with
  | nil => rfl
  | cons p m ih =>
    obtain ⟨j, d⟩ := p
    have hj : i < j := h (j, d) (by simp)
    rw [memory_read_cons, if_neg (by omega)]
    exact ih fun q hq => h q (by simp [hq])

/-- Every index a write lists was listed before or is the one written. -/
theorem memory_mem_write {m : Memory} {i : Nat} {c : Color} {p : Nat × Color} (h : p ∈ Memory.write init i c m) :
    p.1 = i ∨ p ∈ m := by
  induction m with
  | nil =>
    unfold Memory.write at h
    split at h <;> simp_all
  | cons q m ih =>
    obtain ⟨j, d⟩ := q
    unfold Memory.write at h
    split_ifs at h <;> simp only [List.mem_cons] at h ⊢
    · tauto
    · rcases h with h | h | h
      · exact .inl (by simp [h])
      · tauto
      · tauto
    · tauto
    · rcases h with h | h
      · exact .inl (by simp [h])
      · tauto
    · rcases h with h | h
      · tauto
      · rcases ih h with h | h <;> tauto

/-- A write keeps the canonical form (R130, R44). -/
theorem memory_wf_write {m : Memory} {i : Nat} (c : Color) (hm : Memory.wf init n m = true) (hi : i < n) :
    Memory.wf init n (Memory.write init i c m) = true := by
  induction m with
  | nil =>
    unfold Memory.write
    split
    · exact memory_wf_nil
    · rw [memory_wf_cons]; exact ⟨by simp, hi, by assumption, memory_wf_nil⟩
  | cons q m ih =>
    obtain ⟨j, d⟩ := q
    have hm' := hm
    rw [memory_wf_cons] at hm'
    obtain ⟨hlt, hj, hd, hrest⟩ := hm'
    unfold Memory.write
    split_ifs with h1 h2 h3 h4
    · exact hm
    · rw [memory_wf_cons]
      refine ⟨?_, hi, h2, hm⟩
      intro p hp
      rcases List.mem_cons.1 hp with rfl | hp
      · exact h1
      · exact lt_trans h1 (hlt p hp)
    · exact hrest
    · subst h3
      rw [memory_wf_cons]; exact ⟨hlt, hi, h4, hrest⟩
    · rw [memory_wf_cons]
      refine ⟨?_, hj, hd, ih hrest⟩
      intro p hp
      rcases memory_mem_write hp with h | h
      · omega
      · exact hlt p h

/-- A read after a write: the Color written, and every other entry as before. -/
theorem memory_read_write {m : Memory} (i : Nat) (c : Color) (j : Nat) (hm : Memory.wf init n m = true) :
    Memory.read init (Memory.write init i c m) j = if j = i then c else Memory.read init m j := by
  induction m with
  | nil =>
    unfold Memory.write
    by_cases hc : c = init i <;> by_cases hj : j = i <;> simp_all [memory_read_cons]
  | cons q m ih =>
    obtain ⟨k, d⟩ := q
    rw [memory_wf_cons] at hm
    obtain ⟨hlt, -, hd, hrest⟩ := hm
    have below : i ≤ k → Memory.read init m i = init i := fun h =>
      memory_read_below fun p hp => lt_of_le_of_lt h (hlt p hp)
    have listed : Memory.write init i c ((k, d) :: m) =
        if i < k then (if c = init i then (k, d) :: m else (i, c) :: (k, d) :: m)
        else if i = k then (if c = init i then m else (i, c) :: m)
        else (k, d) :: Memory.write init i c m := rfl
    rw [listed]
    rcases lt_trichotomy i k with h | h | h
    · rw [if_pos h]
      by_cases hc : c = init i
      · rw [if_pos hc]
        by_cases hj : j = i
        · subst hj; rw [if_pos rfl, memory_read_cons, if_neg (by omega), below h.le, hc]
        · rw [if_neg hj]
      · rw [if_neg hc, memory_read_cons]
    · subst h
      rw [if_neg (by omega), if_pos rfl, memory_read_cons]
      by_cases hc : c = init i
      · rw [if_pos hc]
        by_cases hj : j = i
        · subst hj; rw [if_pos rfl, below le_rfl, hc]
        · rw [if_neg hj, if_neg hj]
      · rw [if_neg hc, memory_read_cons]
        by_cases hj : j = i <;> simp only [hj, if_true, if_false]
    · rw [if_neg (by omega), if_neg (by omega), memory_read_cons, memory_read_cons, ih hrest]
      by_cases hj : j = k
      · rw [if_pos hj, if_neg (by omega)]; simp [hj]
      · simp only [hj, if_false]

theorem memory_read_eq_of_mem {m : Memory} {i : Nat} {c : Color} (hm : Memory.wf init n m = true) (h : (i, c) ∈ m) :
    Memory.read init m i = c := by
  induction m with
  | nil => cases h
  | cons q m ih =>
    obtain ⟨k, d⟩ := q
    rw [memory_wf_cons] at hm
    rw [memory_read_cons]
    rcases List.mem_cons.1 h with h | h
    · cases h; simp
    · rw [if_neg (by have := hm.1 _ h; simp only at this; omega)]
      exact ih hm.2.2.2 h

theorem memory_read_of_notMem {m : Memory} {i : Nat} (h : ∀ c, (i, c) ∉ m) : Memory.read init m i = init i := by
  induction m with
  | nil => rfl
  | cons q m ih =>
    obtain ⟨k, d⟩ := q
    rw [memory_read_cons, if_neg (by rintro rfl; exact h d (by simp))]
    exact ih fun c hc => h c (by simp [hc])

/-- A fill is in canonical form (R132). -/
theorem memory_wf_fill (c : Color) : Memory.wf init n (Memory.fill init n c) = true := by
  have hsorted : (Memory.fill init n c).Pairwise fun p q => p.1 < q.1 := by
    unfold Memory.fill
    rw [List.pairwise_filterMap]
    refine List.pairwise_lt_range.imp ?_
    intro a a' h p hp q hq
    split_ifs at hp hq
    cases hp; cases hq; exact h
  simp only [Memory.wf, Bool.and_eq_true, decide_eq_true_eq, hsorted, true_and, List.all_eq_true]
  intro p hp
  simp only [Memory.fill, List.mem_filterMap, List.mem_range] at hp
  obtain ⟨i, hi, h⟩ := hp
  split_ifs at h with hc
  cases h
  exact ⟨hi, hc⟩

/-- A read after a fill: the Color filled below n, the initial Color elsewhere. -/
theorem memory_read_fill (c : Color) (j : Nat) :
    Memory.read init (Memory.fill init n c) j = if j < n then c else init j := by
  by_cases h : j < n ∧ c ≠ init j
  · rw [if_pos h.1]
    refine memory_read_eq_of_mem (memory_wf_fill c) ?_
    simp only [Memory.fill, List.mem_filterMap, List.mem_range]
    exact ⟨j, h.1, by simp [h.2]⟩
  · rw [memory_read_of_notMem]
    · split_ifs with hj
      · exact (not_not.1 fun hc => h ⟨hj, fun e => hc e.symm⟩)
      · rfl
    · intro d hd
      simp only [Memory.fill, List.mem_filterMap, List.mem_range] at hd
      obtain ⟨i, hi, hd⟩ := hd
      split_ifs at hd with hc
      cases hd
      exact h ⟨hi, hc⟩

/-- The memory of the machine right after CONFIGURE is in canonical form; right after reset there is none (R29). -/
theorem reset_life_inv : Life.Inv State.reset.build State.reset.life := trivial

@[simp] theorem memory_readAll_length (m : Memory) (k : Nat) : (Memory.readAll init m k).length = k := by
  simp [Memory.readAll]

theorem memory_readAll_get {m : Memory} {k i : Nat} (h : i < k) :
    (Memory.readAll init m k)[i]? = some (Memory.read init m i) := by
  simp [Memory.readAll, h]

end Sys2Proof.Machine
end

