-- ==== Sys2Proof/Laws/Ops.lean ====
section
/-! SUPPORT. One lemma per shared operation: everything it can do. Callers cite these and never unfold the operation. -/
namespace Sys2Proof.Machine

/-! ## Answering -/

@[simp] theorem respond_eq (r : Response) (s : State) : respond r s = .next { s with rsp := some r } := rfl

@[simp] theorem raise_eq (e : BlockError) (s : State) :
    raise e s = .next { s with esr := s.esr ||| e.esrBit, rsp := some (.error e) } := rfl

theorem fromHost_of_host {s : State} (run : Result) (hi : s.issuer = .host) : fromHost s run = run := by
  simp [fromHost, hi]

/-- `fromHost` answers a next state only by running its body, from the host. -/
theorem fromHost_next {s t : State} {run : Result} (h : fromHost s run = .next t) : s.issuer = .host ∧ run = .next t := by
  cases hi : s.issuer <;> simp_all [fromHost]

theorem fromFrontEnd_of_frontEnd {s : State} (run : Result) (hi : s.issuer = .frontEnd) : fromFrontEnd s run = run := by
  simp [fromFrontEnd, hi]

/-- `fromFrontEnd` answers a next state only by running its body, from the front end. -/
theorem fromFrontEnd_next {s t : State} {run : Result} (h : fromFrontEnd s run = .next t) :
    s.issuer = .frontEnd ∧ run = .next t := by
  cases hi : s.issuer <;> simp_all [fromFrontEnd]

theorem whenReady_of_ready {s : State} {p : Strip} (run : Strip → Result) (hl : s.life = .ready p) :
    whenReady s run = run p := by
  simp [whenReady, hl]

/-- `whenReady` answers a next state only by running its body, on a constructed strip. -/
theorem whenReady_next {s t : State} {run : Strip → Result} (h : whenReady s run = .next t) :
    ∃ p, s.life = .ready p ∧ run p = .next t := by
  cases hl : s.life <;> simp_all [whenReady]

theorem whenUnconfigured_of_unconfigured {s : State} (run : Result) (hl : s.life = .unconfigured) :
    whenUnconfigured s run = run := by
  simp [whenUnconfigured, hl]

/-- `whenUnconfigured` answers a next state only by running its body, before construction. -/
theorem whenUnconfigured_next {s t : State} {run : Result} (h : whenUnconfigured s run = .next t) :
    s.life = .unconfigured ∧ run = .next t := by
  cases hl : s.life <;> simp_all [whenUnconfigured]

/-! ## Operands -/

theorem indexInRange_eq_some {index : Int} {n : U32} {i : Nat} :
    indexInRange index n = some i ↔ index = i ∧ i < n.toNat := by
  unfold indexInRange
  split <;> simp <;> omega

theorem indexInRange_eq_none {index : Int} {n : U32} :
    indexInRange index n = none ↔ index < 0 ∨ index ≥ n.toNat := by
  unfold indexInRange
  split <;> simp_all

/-! ## Sending -/

/-- SEND's three outcomes (R111). -/
theorem sendBits_cases (bits : List Bool) (s : State) :
    (s.seq.phase ≠ .idle ∧ sendBits bits s = raise (.hardware .busy) s) ∨
    (s.seq.phase = .idle ∧ s.periphAvail = false ∧ sendBits bits s = raise (.hardware .unavailable) s) ∨
    (s.seq.phase = .idle ∧ s.periphAvail = true ∧
      sendBits bits s = .next { s with seq := Sequencer.load s.build bits, rsp := some .ok }) := by
  unfold sendBits
  by_cases h : s.seq.phase = .idle
  · cases ha : s.periphAvail <;> simp [h]
  · simp [h]

theorem sendBits_idle (bits : List Bool) {s : State} (h : s.seq.phase = .idle) (ha : s.periphAvail = true) :
    sendBits bits s = .next { s with seq := Sequencer.load s.build bits, rsp := some .ok } := by
  simp [sendBits, h, ha]

/-- ENCODE's outcomes on a constructed strip (R95, R172). -/
theorem encodeAndSend_cases (buffer : List Color) (brt : F32) (p : Strip) (s : State) :
    (buffer.length ≠ p.ledCount.toNat ∧
      encodeAndSend buffer brt p s = raise (.configuration (.length buffer.length p.ledCount)) s) ∨
    (buffer.length = p.ledCount.toNat ∧ validBrt brt = false ∧
      encodeAndSend buffer brt p s = raise (.configuration (.brightness brt)) s) ∨
    (buffer.length = p.ledCount.toNat ∧ validBrt brt = true ∧
      encodeAndSend buffer brt p s = sendBits (frameBits s.build.scaleFn buffer brt) s) := by
  unfold encodeAndSend
  by_cases h : buffer.length = p.ledCount.toNat
  · cases hb : validBrt brt <;> simp [h]
  · simp [h]

/-! ## The sequencer -/

/-- What a tick does to the sequencer in each phase (R114). -/
theorem sequencer_tick_cases (b : Build) (q : Sequencer) :
    (q.phase = .idle ∧ q.tick b = q) ∨
    (q.phase = .shift ∧ q.tck < b.tb - 1 ∧ q.tick b = { q with tck := q.tck + 1 }) ∨
    (q.phase = .shift ∧ ¬ q.tck < b.tb - 1 ∧ q.txq.tail = [] ∧
      q.tick b = { phase := .latch, txq := [], tck := 0, hold := b.resetTicks }) ∨
    (q.phase = .shift ∧ ¬ q.tck < b.tb - 1 ∧ q.txq.tail ≠ [] ∧ q.tick b = { q with txq := q.txq.tail, tck := 0 }) ∨
    (q.phase = .latch ∧ 1 < q.hold ∧ q.tick b = { q with hold := q.hold - 1 }) ∨
    (q.phase = .latch ∧ ¬ 1 < q.hold ∧ q.tick b = { q with phase := .idle, hold := 0 }) := by
  unfold Sequencer.tick
  cases hp : q.phase
  · simp
  · by_cases ht : q.tck < b.tb - 1
    · simp [ht]
    · cases hq : q.txq.tail <;> simp [ht]
  · by_cases hh : 1 < q.hold <;> simp [hh]

/-- A load leaves a sequencer that meets R21, on a legal build. -/
theorem load_inv {b : Build} (hb : 1 ≤ b.resetTicks) (ht : 1 ≤ b.tb) (bits : List Bool) :
    Sequencer.Inv b (Sequencer.load b bits) := by
  cases bits with
  | nil => exact .inr (.inr ⟨rfl, rfl, rfl, hb, le_rfl⟩)
  | cons v rest => exact .inr (.inl ⟨rfl, by simp, ht, rfl⟩)

theorem idle_inv (b : Build) : Sequencer.Inv b .idle := .inl ⟨rfl, rfl, rfl, rfl⟩

/-- What a legal build gives (R7, R14). -/
theorem build_legal {b : Build} (h : b.legal = true) :
    1 ≤ b.t1 ∧ 1 ≤ b.t2 ∧ 1 ≤ b.t3 ∧ 1 ≤ b.resetTicks ∧ 3 ≤ b.tb := by
  simp only [Build.legal, Bool.and_eq_true, decide_eq_true_eq] at h
  obtain ⟨⟨⟨⟨⟨h1, h2⟩, h3⟩, h4⟩, -⟩, -⟩ := h
  refine ⟨h1, h2, h3, ?_, by unfold Build.tb; omega⟩
  by_contra hr
  have : b.resetTicks = 0 := by omega
  rw [this, Nat.zero_mul] at h4
  simp [lowHoldPs] at h4

/-! ## Wire patterns -/

theorem emitBits_of_prefix {bits rest : List Bool} {s : State} (hp : s.seq.phase = .shift) (hq : s.seq.txq = bits ++ rest) :
    emitBits bits s = .next { s with
      seq := Sequencer.load s.build rest
      trace := s.trace ++ (symbols s.build bits).drop s.seq.tck } := by
  simp [emitBits, hp, hq]

/-- A pattern runs only where TXQ begins with its bits. -/
theorem emitBits_next {bits : List Bool} {s t : State} (h : emitBits bits s = .next t) :
    ∃ rest, s.seq.phase = .shift ∧ s.seq.txq = bits ++ rest ∧
      t = { s with
        seq := Sequencer.load s.build rest
        trace := s.trace ++ (symbols s.build bits).drop s.seq.tck } := by
  unfold emitBits at h
  split at h
  · next hc =>
    obtain ⟨rest, hr⟩ := List.isPrefixOf_iff_prefix.1 hc.2
    refine ⟨rest, hc.1, hr.symm, ?_⟩
    have : s.seq.txq.drop bits.length = rest := by rw [← hr]; simp
    rw [this] at h
    exact (Host.Outcome.next.inj h).symm
  · cases h

theorem emitLowHold_next {s t : State} (h : emitLowHold s = .next t) :
    s.seq.phase = .latch ∧ t = { s with seq := .idle, trace := s.trace ++ List.replicate s.seq.hold false } := by
  unfold emitLowHold at h
  split at h
  · next hc => exact ⟨hc, (Host.Outcome.next.inj h).symm⟩
  · cases h

end Sys2Proof.Machine
end

