-- ==== Sys2Proof/Laws/Exec.lean ====
section
/-! SUPPORT. Everything an instruction and a step can do: the inversion lemmas that invariants are proved from. -/
namespace Sys2Proof.Machine

/-- The commands that send (R95, R96, R111). -/
def Sends (i : Instr) : Prop := i = .flush ∨ (∃ buffer brt, i = .encode buffer brt) ∨ ∃ bits, i = .send bits

/-- What an instruction does when it answers a next state. -/
inductive Did (i : Instr) (s t : State) : Prop where
  /-- A command raised an error (R176). -/
  | raised (e : BlockError) (hf : i.format = .cmd) (ht : t = { s with esr := s.esr ||| e.esrBit, rsp := some (.error e) })
  /-- GET responded a Color. -/
  | responded (c : Color) (hf : i.format = .cmd) (ht : t = { s with rsp := some (.color c) })
  /-- CONFIGURE constructed the strip. -/
  | constructed (p : Strip) (hf : i.format = .cmd) (hl : s.life = .unconfigured) (hn : p.ledCount ≠ 0#32)
      (hb : validBrt p.brightness = true) (hp : p.pb = []) (ht : t = { s with life := .ready p, rsp := some .ok })
  /-- SET wrote one entry. -/
  | wrote (p : Strip) (k : Nat) (c : Color) (hf : i.format = .cmd) (hl : s.life = .ready p) (hk : k < p.ledCount.toNat)
      (ht : t = { s with life := .ready (p.write s.build k c), rsp := some .ok })
  /-- FILL or CLEAR wrote every entry. -/
  | filled (p : Strip) (c : Color) (hf : i.format = .cmd) (hl : s.life = .ready p)
      (ht : t = { s with life := .ready (p.fillWith s.build c), rsp := some .ok })
  /-- ENCODE, FLUSH or SEND loaded the sequencer, from IDLE. -/
  | sent (bits : List Bool) (hi : Sends i) (hp : s.seq.phase = .idle)
      (ht : t = { s with seq := Sequencer.load s.build bits, rsp := some .ok })
  /-- WORD24, SYM0 or SYM1 ran the symbols of the first bits of TXQ. -/
  | emitted (bits rest : List Bool) (hf : i.format ≠ .cmd) (hb : bits ≠ []) (hp : s.seq.phase = .shift)
      (hq : s.seq.txq = bits ++ rest)
      (ht : t = { s with
        seq := Sequencer.load s.build rest
        trace := s.trace ++ (symbols s.build bits).drop s.seq.tck })
  /-- RESET ran the low-hold. -/
  | held (hi : i = .reset) (hp : s.seq.phase = .latch)
      (ht : t = { s with seq := .idle, trace := s.trace ++ List.replicate s.seq.hold false })

theorem sends_format {i : Instr} (h : Sends i) : i.format = .cmd := by
  rcases h with rfl | ⟨_, _, rfl⟩ | ⟨_, rfl⟩ <;> rfl

theorem sendBits_did {i : Instr} {bits : List Bool} {s t : State} (hi : Sends i) (h : sendBits bits s = .next t) :
    Did i s t := by
  rcases sendBits_cases bits s with ⟨-, e⟩ | ⟨-, -, e⟩ | ⟨hp, -, e⟩ <;> rw [e] at h
  · exact .raised _ (sends_format hi) (Host.Outcome.next.inj h).symm
  · exact .raised _ (sends_format hi) (Host.Outcome.next.inj h).symm
  · exact .sent bits hi hp (Host.Outcome.next.inj h).symm

theorem encodeAndSend_did {i : Instr} {buffer : List Color} {brt : F32} {p : Strip} {s t : State} (hi : Sends i)
    (h : encodeAndSend buffer brt p s = .next t) : Did i s t := by
  rcases encodeAndSend_cases buffer brt p s with ⟨-, e⟩ | ⟨-, -, e⟩ | ⟨-, -, e⟩ <;> rw [e] at h
  · exact .raised _ (sends_format hi) (Host.Outcome.next.inj h).symm
  · exact .raised _ (sends_format hi) (Host.Outcome.next.inj h).symm
  · exact sendBits_did hi h

theorem emitBits_did {i : Instr} {bits : List Bool} {s t : State} (hf : i.format ≠ .cmd) (hb : bits ≠ [])
    (h : emitBits bits s = .next t) : Did i s t := by
  obtain ⟨rest, hp, hq, ht⟩ := emitBits_next h
  exact .emitted bits rest hf hb hp hq ht

/-- An instruction that answers a next state did one of the eight things. -/
theorem exec_did {i : Instr} {s t : State} (h : exec i s = .next t) : Did i s t := by
  cases i with
  | configure n pin brt =>
    obtain ⟨hl, h⟩ := whenUnconfigured_next (fromHost_next h).2
    split_ifs at h with hn hb
    · exact .raised _ rfl (Host.Outcome.next.inj h).symm
    · exact .constructed _ rfl hl hn hb rfl (Host.Outcome.next.inj h).symm
    · exact .raised _ rfl (Host.Outcome.next.inj h).symm
  | set index color =>
    obtain ⟨p, hl, h⟩ := whenReady_next (fromHost_next h).2
    split at h
    · exact .raised _ rfl (Host.Outcome.next.inj h).symm
    · next k hk => exact .wrote p k color rfl hl (indexInRange_eq_some.1 hk).2 (Host.Outcome.next.inj h).symm
  | get index =>
    obtain ⟨p, hl, h⟩ := whenReady_next (fromHost_next h).2
    split at h
    · exact .raised _ rfl (Host.Outcome.next.inj h).symm
    · exact .responded _ rfl (Host.Outcome.next.inj h).symm
  | fill color =>
    obtain ⟨p, hl, h⟩ := whenReady_next (fromHost_next h).2
    exact .filled p color rfl hl (Host.Outcome.next.inj h).symm
  | clear =>
    obtain ⟨p, hl, h⟩ := whenReady_next (fromHost_next h).2
    exact .filled p black rfl hl (Host.Outcome.next.inj h).symm
  | flush =>
    obtain ⟨p, -, h⟩ := whenReady_next (fromHost_next h).2
    exact encodeAndSend_did (.inl rfl) h
  | encode buffer brt =>
    obtain ⟨p, -, h⟩ := whenReady_next (fromHost_next h).2
    exact encodeAndSend_did (.inr (.inl ⟨buffer, brt, rfl⟩)) h
  | send bits =>
    obtain ⟨p, -, h⟩ := whenReady_next (fromFrontEnd_next h).2
    exact sendBits_did (.inr (.inr ⟨bits, rfl⟩)) h
  | word24 w => exact emitBits_did (by simp [Instr.format]) (by simp [bits24]) h
  | sym0 => exact emitBits_did (by simp [Instr.format]) (by simp) h
  | sym1 => exact emitBits_did (by simp [Instr.format]) (by simp) h
  | reset =>
    obtain ⟨hp, ht⟩ := emitLowHold_next h
    exact .held rfl hp ht

/-- What a step does when it answers a next state: a command, a wire instruction, a tick, a change of `periph_avail`, a move spent, or a
reset. -/
inductive Stepped (s t : State) : Prop where
  | command (i : Instr) (rest : List Move) (who : Issuer) (bytes : List Byte)
      (hs : s.schedule = .command who bytes :: rest) (hd : decodeCommand bytes = .ok i)
      (h : exec i { s with schedule := rest, issuer := who } = .next t)
  | wire (i : Instr) (rest : List Move) (u : WireUnit) (hs : s.schedule = .wire u :: rest) (hw : wireInstr u s.seq = some i)
      (h : exec i { s with schedule := rest } = .next t)
  | ticked (rest : List Move) (hr : s.schedule.head? ≠ some .reset) (ht : t = tick { s with schedule := rest })
  | spent (rest : List Move) (available : Bool) (hr : s.schedule.head? ≠ some .reset)
      (ht : t = { s with schedule := rest, periphAvail := available })
  | reset (rest : List Move) (hs : s.schedule = .reset :: rest) (ht : t = resetBlock { s with schedule := rest })

/-! ## One equation per move -/

theorem step_silent {s : State} (h : s.schedule = []) : step s = .next (tick s) := by
  simp [step, fetch, h]

theorem step_wait_zero {s : State} {rest : List Move} (h : s.schedule = .wait 0 :: rest) :
    step s = .next { s with schedule := rest } := by
  simp [step, fetch, h]

theorem step_wait_succ {s : State} {n : Nat} {rest : List Move} (h : s.schedule = .wait (n + 1) :: rest) :
    step s = .next (tick { s with schedule := .wait n :: rest }) := by
  simp [step, fetch, h]

theorem step_waitIdle {s : State} {rest : List Move} (h : s.schedule = .waitIdle :: rest) :
    step s = if s.busy then .next (tick s) else .next { s with schedule := rest } := by
  cases hb : s.busy <;> simp [step, fetch, h, hb]

theorem step_periphAvail {s : State} {a : Bool} {rest : List Move} (h : s.schedule = .periphAvail a :: rest) :
    step s = .next { s with periphAvail := a, schedule := rest } := by
  simp [step, fetch, h]

theorem step_reset {s : State} {rest : List Move} (h : s.schedule = .reset :: rest) :
    step s = .next (resetBlock { s with schedule := rest }) := by
  simp [step, fetch, h]

theorem step_command_ok {s : State} {who : Issuer} {bytes : List Byte} {rest : List Move} {i : Instr}
    (h : s.schedule = .command who bytes :: rest) (hd : decodeCommand bytes = .ok i) :
    step s = exec i { s with schedule := rest, issuer := who } := by
  simp [step, fetch, h, hd]

theorem step_command_error {s : State} {who : Issuer} {bytes : List Byte} {rest : List Move} {e : DecodeError}
    (h : s.schedule = .command who bytes :: rest) (hd : decodeCommand bytes = .error e) :
    step s = .refused (.undecodable e) := by
  simp [step, fetch, h, hd]

theorem step_wire_some {s : State} {u : WireUnit} {rest : List Move} {i : Instr}
    (h : s.schedule = .wire u :: rest) (hw : wireInstr u s.seq = some i) :
    step s = exec i { s with schedule := rest } := by
  simp [step, fetch, h, hw]

theorem step_wire_none {s : State} {u : WireUnit} {rest : List Move}
    (h : s.schedule = .wire u :: rest) (hw : wireInstr u s.seq = none) :
    step s = .next (tick { s with schedule := rest }) := by
  simp [step, fetch, h, hw]

/-! ## Runs -/

theorem run_succ (M : Host.Core) (n : Nat) {s t : M.State} (h : M.step s = .next t) : M.run (n + 1) s = M.run n t := by
  simp only [Host.Core.run, h]

/-- A run of n + 1 steps is a step and a run of n. -/
theorem core_run_succ (n : Nat) {s t : State} (h : step s = .next t) :
    Host.Core.run Sys2Proof.core (n + 1) s = Host.Core.run Sys2Proof.core n t :=
  run_succ Sys2Proof.core n h

/-- Everything a step can do. -/
theorem step_did {s t : State} (h : step s = .next t) : Stepped s t := by
  cases hs : s.schedule with
  | nil =>
    rw [step_silent hs] at h
    exact .ticked [] (by simp [hs]) (by rw [← Host.Outcome.next.inj h, ← hs])
  | cons m rest =>
    cases m with
    | command who bytes =>
      cases hd : decodeCommand bytes with
      | ok i =>
        rw [step_command_ok hs hd] at h
        exact .command i rest who bytes hs hd h
      | error e =>
        rw [step_command_error hs hd] at h
        cases h
    | wait n =>
      cases n with
      | zero =>
        rw [step_wait_zero hs] at h
        exact .spent rest s.periphAvail (by simp [hs]) (Host.Outcome.next.inj h).symm
      | succ n =>
        rw [step_wait_succ hs] at h
        exact .ticked _ (by simp [hs]) (Host.Outcome.next.inj h).symm
    | waitIdle =>
      rw [step_waitIdle hs] at h
      split at h
      · exact .ticked _ (by simp [hs]) (Host.Outcome.next.inj h).symm
      · exact .spent rest s.periphAvail (by simp [hs]) (Host.Outcome.next.inj h).symm
    | wire u =>
      cases hw : wireInstr u s.seq with
      | some i =>
        rw [step_wire_some hs hw] at h
        exact .wire i rest u hs hw h
      | none =>
        rw [step_wire_none hs hw] at h
        exact .ticked _ (by simp [hs]) (Host.Outcome.next.inj h).symm
    | periphAvail a =>
      rw [step_periphAvail hs] at h
      exact .spent rest a (by simp [hs]) (Host.Outcome.next.inj h).symm
    | reset =>
      rw [step_reset hs] at h
      exact .reset rest hs (Host.Outcome.next.inj h).symm

end Sys2Proof.Machine
end

