-- ==== Sys2Proof/Laws/Decode.lean ====
section
/-! SUPPORT. Each reader of the decoder reads exactly what its writer writes; and the interfaces keep apart: bytes on `cmd` decode to commands only, and the sequencer's position holds wire patterns only. -/
namespace Sys2Proof.Machine

theorem readConfigure_format {flags : Nat} {bs rest : List Byte} {i : Instr}
    (h : readConfigure flags bs = .ok (i, rest)) : i.format = .cmd := by
  simp only [readConfigure, bind, Except.bind, pure, Except.pure] at h
  repeat' split at h
  all_goals first
    | cases h; done
    | (simp only [Except.ok.injEq, Prod.mk.injEq] at h; rw [← h.1]; rfl)

theorem readOperands_format {tag : Nat} {bs rest : List Byte} {i : Instr}
    (h : readOperands tag bs = .ok (i, rest)) : i.format = .cmd := by
  unfold readOperands at h
  simp only [bind, Except.bind, pure, Except.pure] at h
  repeat' split at h
  all_goals first
    | cases h; done
    | (simp only [Except.ok.injEq, Prod.mk.injEq] at h; rw [← h.1]; rfl)

/-- Bytes on `cmd` are a command: no wire pattern has a tag (R70). -/
theorem decodeCommand_format {bytes : List Byte} {i : Instr} (h : decodeCommand bytes = .ok i) : i.format = .cmd := by
  unfold decodeCommand at h
  split at h
  · cases h
  · next j hr =>
    cases h
    unfold readCommand at hr
    split at hr
    · cases hr
    · dsimp only at hr
      split_ifs at hr
      · exact readConfigure_format hr
      · exact readOperands_format hr
  · cases h

/-- The sequencer fetches wire patterns only (R56). -/
theorem wireInstr_format {u : WireUnit} {q : Sequencer} {i : Instr} (h : wireInstr u q = some i) : i.format ≠ .cmd := by
  have hp : ∀ j, patternAt q = some j → j.format ≠ .cmd := by
    intro j hj
    unfold patternAt at hj
    split at hj <;> simp only [Option.some.injEq, reduceCtorEq] at hj <;> simp [← hj, Instr.format]
  cases u with
  | pattern => exact hp i h
  | word =>
    simp only [wireInstr] at h
    split at h
    · simp only [Option.some.injEq] at h
      simp [← h, Instr.format]
    · exact hp i h

/-! ## Readers: each reads exactly what its writer writes, and leaves the rest -/

theorem readNat_writeDigits (rest : List Byte) : ∀ (f n : Nat), n ≤ f → readNat (writeDigits f n ++ rest) = .ok (n, rest)
  | 0, n, h => by
    obtain rfl : n = 0 := by omega
    simp [writeDigits, readNat]
  | f + 1, n, h => by
    by_cases hn : n < 128
    · simp [writeDigits, hn, readNat, Nat.mod_eq_of_lt (show n < 256 by omega)]
    · have ih := readNat_writeDigits rest f (n / 128) (by omega)
      have h1 : (n % 128 + 128) % 256 = n % 128 + 128 := by omega
      simp [writeDigits, hn, readNat, ih, h1]
      omega

theorem writeDigits_fuel : ∀ (n f g : Nat), n ≤ f → n ≤ g → writeDigits f n = writeDigits g n := by
  intro n
  induction n using Nat.strongRecOn with
  | _ n ih =>
    intro f g hf hg
    cases f with
    | zero => obtain rfl : n = 0 := by omega
              cases g <;> simp [writeDigits]
    | succ f =>
      cases g with
      | zero => obtain rfl : n = 0 := by omega
                simp [writeDigits]
      | succ g =>
        simp only [writeDigits]
        split
        · rfl
        · rw [ih (n / 128) (by omega) f g (by omega) (by omega)]
theorem writeNat_small {n} (h : n < 128) : writeNat n = [BitVec.ofNat 8 n] := by
  cases n <;> simp_all [writeNat, writeDigits]
theorem writeNat_big {n} (h : 128 ≤ n) : writeNat n = BitVec.ofNat 8 (n % 128 + 128) :: writeNat (n / 128) := by
  obtain ⟨k, rfl⟩ : ∃ k, n = k + 1 := ⟨n - 1, by omega⟩
  rw [writeNat, writeDigits, if_neg (by omega), writeNat, writeDigits_fuel _ k _ (by omega) (Nat.le_refl _)]

theorem readNat_inv : ∀ (bs : List Byte) (n rest), readNat bs = .ok (n, rest) → bs = writeNat n ++ rest
  | [], n, rest, h => by simp [readNat] at h
  | x :: xs, n, rest, h => by
    simp only [readNat] at h
    have hx := x.isLt
    split at h
    · obtain ⟨rfl, rfl⟩ : x.toNat = n ∧ xs = rest := by simpa using h
      rw [writeNat_small ‹_›]; simp
    · split at h
      · simp at h
      · rename_i m ys hm
        have ih := readNat_inv xs m ys hm
        split at h
        · simp at h
        · obtain ⟨rfl, rfl⟩ : x.toNat - 128 + 128 * m = n ∧ ys = rest := by simpa using h
          have e1 : (x.toNat - 128 + 128 * m) % 128 + 128 = x.toNat := by omega
          have e2 : (x.toNat - 128 + 128 * m) / 128 = m := by omega
          rw [writeNat_big (by omega), e1, e2, ih]; simp

/-- A number is read from its shortest form, and from nothing else. -/
theorem readNat_iff {bs rest : List Byte} {n : Nat} : readNat bs = .ok (n, rest) ↔ bs = writeNat n ++ rest := by
  constructor
  · exact readNat_inv bs n rest
  · rintro rfl; exact readNat_writeDigits rest n n (Nat.le_refl n)

theorem intOfNat_natOfInt (i : Int) : intOfNat (natOfInt i) = i := by
  cases i with
  | ofNat n => simp [natOfInt, intOfNat]
  | negSucc n => simp [natOfInt, intOfNat]; omega

theorem natOfInt_intOfNat (n : Nat) : natOfInt (intOfNat n) = n := by
  unfold intOfNat; split <;> simp [natOfInt] <;> omega

theorem readInt_iff {bs rest : List Byte} {i : Int} : readInt bs = .ok (i, rest) ↔ bs = writeNat (natOfInt i) ++ rest := by
  constructor
  · intro h
    simp only [readInt] at h
    split at h
    · simp at h
    · rename_i n r hn
      obtain ⟨rfl, rfl⟩ : intOfNat n = i ∧ r = rest := by simpa using h
      rw [natOfInt_intOfNat, readNat_iff.1 hn]
  · rintro rfl
    simp [readInt, readNat_iff.2 rfl, intOfNat_natOfInt]

theorem readU32_writeU32 (x : BitVec 32) (rest : List Byte) : readU32 (writeU32 x ++ rest) = .ok (x, rest) := by
  simp only [writeU32, List.cons_append, List.nil_append, readU32]
  congr 2
  apply BitVec.eq_of_getLsbD_eq
  intro i hi
  simp only [BitVec.getLsbD_append, BitVec.getLsbD_extractLsb']
  by_cases h1 : i < 8
  · simp [h1]
  by_cases h2 : i < 16
  · simp [h1, show i - 8 < 8 by omega, show 8 + (i - 8) = i by omega]
  by_cases h3 : i < 24
  · simp [h1, show ¬ i - 8 < 8 by omega, show i - 8 - 8 < 8 by omega, show 16 + (i - 8 - 8) = i by omega]
  · simp [h1, show ¬ i - 8 < 8 by omega, show ¬ i - 8 - 8 < 8 by omega, show i - 8 - 8 - 8 < 8 by omega, show 24 + (i - 8 - 8 - 8) = i by omega]

theorem readU32_inv {bs x rest} (h : readU32 bs = .ok (x, rest)) : bs = writeU32 x ++ rest := by
  unfold readU32 at h
  split at h
  · rename_i x0 x1 x2 x3 r
    obtain ⟨rfl, rfl⟩ : x3 ++ x2 ++ x1 ++ x0 = x ∧ r = rest := by simpa using h
    have key : ∀ i, (x3 ++ x2 ++ x1 ++ x0 : BitVec 32).getLsbD i = if i < 8 then x0.getLsbD i else if i - 8 < 8 then x1.getLsbD (i - 8) else if i - 8 - 8 < 8 then x2.getLsbD (i - 8 - 8) else x3.getLsbD (i - 8 - 8 - 8) := by
      intro i
      exact (BitVec.getLsbD_append (x := x3 ++ x2 ++ x1) (y := x0)).trans (by
        rw [BitVec.getLsbD_append, BitVec.getLsbD_append])
    have e0 : BitVec.extractLsb' 0 8 (x3 ++ x2 ++ x1 ++ x0 : BitVec 32) = x0 := by
      apply BitVec.eq_of_getLsbD_eq; intro i hi; rw [BitVec.getLsbD_extractLsb', key]; simp [hi]
    have e1 : BitVec.extractLsb' 8 8 (x3 ++ x2 ++ x1 ++ x0 : BitVec 32) = x1 := by
      apply BitVec.eq_of_getLsbD_eq; intro i hi; rw [BitVec.getLsbD_extractLsb', key]; simp [hi]
    have e2 : BitVec.extractLsb' 16 8 (x3 ++ x2 ++ x1 ++ x0 : BitVec 32) = x2 := by
      apply BitVec.eq_of_getLsbD_eq; intro i hi; rw [BitVec.getLsbD_extractLsb', key]
      simp [hi, show ¬ 16 + i < 8 by omega, show ¬ 16 + i - 8 < 8 by omega, show 16 + i - 8 - 8 = i by omega]
    have e3 : BitVec.extractLsb' 24 8 (x3 ++ x2 ++ x1 ++ x0 : BitVec 32) = x3 := by
      apply BitVec.eq_of_getLsbD_eq; intro i hi; rw [BitVec.getLsbD_extractLsb', key]
      simp [hi, show ¬ 24 + i < 8 by omega, show ¬ 24 + i - 8 < 8 by omega, show ¬ 24 + i - 8 - 8 < 8 by omega, show 24 + i - 8 - 8 - 8 = i by omega]
    simp only [writeU32, e0, e1, e2, e3, List.cons_append, List.nil_append]
  · simp at h

theorem readU32_iff {bs rest : List Byte} {x : BitVec 32} : readU32 bs = .ok (x, rest) ↔ bs = writeU32 x ++ rest := by
  constructor
  · exact readU32_inv
  · rintro rfl; exact readU32_writeU32 x rest

theorem readColor_iff {bs rest : List Byte} {c : Color} : readColor bs = .ok (c, rest) ↔ bs = writeColor c ++ rest := by
  constructor
  · intro h
    unfold readColor at h
    split at h
    · obtain ⟨rfl, rfl⟩ := by simpa using h
      rfl
    · simp at h
  · rintro rfl; rfl

theorem readColors_write (cs : List Color) (rest : List Byte) : readColors cs.length (cs.flatMap writeColor ++ rest) = .ok (cs, rest) := by
  induction cs with
  | nil => rfl
  | cons c cs ih => simp [readColors, readColor_iff.2 rfl, ih]

theorem readColors_inv : ∀ (n : Nat) (bs) (cs) (rest), readColors n bs = .ok (cs, rest) → cs.length = n ∧ bs = cs.flatMap writeColor ++ rest
  | 0, bs, cs, rest, h => by obtain ⟨rfl, rfl⟩ := by simpa [readColors] using h
                             simp
  | n + 1, bs, cs, rest, h => by
    simp only [readColors] at h
    split at h
    · simp at h
    · rename_i c r hc
      split at h
      · simp at h
      · rename_i cs' r' hcs
        obtain ⟨h1, h2⟩ := readColors_inv n r cs' r' hcs
        obtain ⟨rfl, rfl⟩ := by simpa using h
        simp [readColor_iff.1 hc, h1, h2]

theorem readColors_iff {n : Nat} {bs rest : List Byte} {cs : List Color} :
    readColors n bs = .ok (cs, rest) ↔ cs.length = n ∧ bs = cs.flatMap writeColor ++ rest := by
  constructor
  · exact readColors_inv n bs cs rest
  · rintro ⟨rfl, rfl⟩; exact readColors_write cs rest

theorem readBit_iff {bs rest : List Byte} {v : Bool} : readBit bs = .ok (v, rest) ↔ bs = writeBit v :: rest := by
  constructor
  · intro h
    unfold readBit at h
    split at h
    · simp at h
    · split at h
      · obtain ⟨rfl, rfl⟩ := by simpa using h
        simp_all [writeBit]
      · split at h
        · obtain ⟨rfl, rfl⟩ := by simpa using h
          simp_all [writeBit]
        · simp at h
  · rintro rfl; cases v <;> simp [readBit, writeBit]

theorem readBits_write (bs : List Bool) (rest : List Byte) : readBits bs.length (bs.map writeBit ++ rest) = .ok (bs, rest) := by
  induction bs with
  | nil => rfl
  | cons c cs ih => cases c <;> simp [readBits, readBit, writeBit, ih]


theorem readBits_inv : ∀ (n : Nat) (bs) (cs) (rest), readBits n bs = .ok (cs, rest) → cs.length = n ∧ bs = cs.map writeBit ++ rest
  | 0, bs, cs, rest, h => by obtain ⟨rfl, rfl⟩ := by simpa [readBits] using h
                             simp
  | n + 1, bs, cs, rest, h => by
    simp only [readBits] at h
    split at h
    · simp at h
    · rename_i c r hc
      split at h
      · simp at h
      · rename_i cs' r' hcs
        obtain ⟨h1, h2⟩ := readBits_inv n r cs' r' hcs
        obtain ⟨rfl, rfl⟩ := by simpa using h
        simp [readBit_iff.1 hc, h1, h2]

theorem readBits_iff {n : Nat} {bs rest : List Byte} {vs : List Bool} :
    readBits n bs = .ok (vs, rest) ↔ vs.length = n ∧ bs = vs.map writeBit ++ rest := by
  constructor
  · exact readBits_inv n bs vs rest
  · rintro ⟨rfl, rfl⟩; exact readBits_write vs rest

/-- An option is read as its presence bit says, by the operand's own reader. -/
theorem readOption_iff {α : Type} {p : Bool} {read : List Byte → Except DecodeError (α × List Byte)} {write : α → List Byte}
    (hr : ∀ bs x rest, read bs = .ok (x, rest) ↔ bs = write x ++ rest) {bs rest : List Byte} {o : Option α} :
    readOption p read bs = .ok (o, rest) ↔ o.isSome = p ∧ bs = writeOption write o ++ rest := by
  constructor
  · intro h
    unfold readOption at h
    split at h
    · split at h
      · simp at h
      · obtain ⟨rfl, rfl⟩ := by simpa using h
        simp_all [writeOption]
    · obtain ⟨rfl, rfl⟩ := by simpa using h
      simp_all [writeOption]
  · rintro ⟨rfl, rfl⟩
    cases o with
    | none => simp [readOption, writeOption]
    | some x => simp [readOption, writeOption, (hr _ x rest).2 rfl]

end Sys2Proof.Machine
end

