-- ==== Sys2Proof/Laws/PerInstr.lean ====
section
/-! SUPPORT. Statements about every instruction as syntax, one lemma per constructor. Family `Tag`: a command's first byte carries its tag
in bits 2:0 (R70), and a wire pattern, which has no tag, is no bytes on `cmd`. -/
namespace Sys2Proof.Laws.Tag

/-- The tag R70 gives the instruction stands in bits 2:0 of the first byte of its code; an instruction without a tag has no bytes. -/
def Statement (i : Instr) : Prop :=
  (∀ t, i.tag = some t → ∃ header operands, encodeCommand i = header :: operands ∧ header.extractLsb' 0 3 = t) ∧
  (i.tag = none → encodeCommand i = [])

theorem configure (n : Option U32) (pin : Option PinId) (brt : Option F32) : Statement (.configure n pin brt) := by
  refine ⟨fun t ht => ⟨configureHeader n pin brt, _, rfl, ?_⟩, by simp [Instr.tag]⟩
  obtain rfl : 0b000#3 = t := Option.some.inj ht
  cases n <;> cases pin <;> cases brt <;> simp [configureHeader]

theorem set (index : Int) (color : Color) : Statement (.set index color) :=
  ⟨fun t ht => ⟨1#8, _, rfl, by obtain rfl : 0b001#3 = t := Option.some.inj ht; rfl⟩, by simp [Instr.tag]⟩

theorem get (index : Int) : Statement (.get index) :=
  ⟨fun t ht => ⟨2#8, _, rfl, by obtain rfl : 0b010#3 = t := Option.some.inj ht; rfl⟩, by simp [Instr.tag]⟩

theorem fill (color : Color) : Statement (.fill color) :=
  ⟨fun t ht => ⟨3#8, _, rfl, by obtain rfl : 0b011#3 = t := Option.some.inj ht; rfl⟩, by simp [Instr.tag]⟩

theorem clear : Statement .clear :=
  ⟨fun t ht => ⟨4#8, _, rfl, by obtain rfl : 0b100#3 = t := Option.some.inj ht; rfl⟩, by simp [Instr.tag]⟩

theorem flush : Statement .flush :=
  ⟨fun t ht => ⟨5#8, _, rfl, by obtain rfl : 0b101#3 = t := Option.some.inj ht; rfl⟩, by simp [Instr.tag]⟩

theorem encode (buffer : List Color) (brt : F32) : Statement (.encode buffer brt) :=
  ⟨fun t ht => ⟨6#8, _, rfl, by obtain rfl : 0b110#3 = t := Option.some.inj ht; rfl⟩, by simp [Instr.tag]⟩

theorem send (bits : List Bool) : Statement (.send bits) :=
  ⟨fun t ht => ⟨7#8, _, rfl, by obtain rfl : 0b111#3 = t := Option.some.inj ht; rfl⟩, by simp [Instr.tag]⟩

theorem word24 (w : WireWord) : Statement (.word24 w) := ⟨by simp [Instr.tag], fun _ => rfl⟩

theorem sym0 : Statement .sym0 := ⟨by simp [Instr.tag], fun _ => rfl⟩

theorem sym1 : Statement .sym1 := ⟨by simp [Instr.tag], fun _ => rfl⟩

theorem reset : Statement .reset := ⟨by simp [Instr.tag], fun _ => rfl⟩

end Sys2Proof.Laws.Tag
end

