-- ==== Sys2Proof/Laws/Wire.lean ====
section
/-! SUPPORT. Bits and words (R40, R97), symbols and their lengths (R110), and ticks in sequence. -/
namespace Sys2Proof.Machine

/-! ## Bits and words -/

@[simp] theorem bits24_length (w : WireWord) : (bits24 w).length = 24 := by simp [bits24]

theorem bits24_getElem? {w : WireWord} {k : Nat} (h : k < 24) : (bits24 w)[k]? = some (w.getLsbD (23 - k)) := by
  simp [bits24, h]

@[simp] theorem natOfBits_append_one (bits : List Bool) (v : Bool) :
    natOfBits (bits ++ [v]) = 2 * natOfBits bits + v.toNat := by
  simp [natOfBits]

/-- Bit i of the number is the i-th bit from the end. -/
theorem natOfBits_testBit (bits : List Bool) (i : Nat) :
    (natOfBits bits).testBit i = (bits.reverse[i]?).getD false := by
  induction bits using List.reverseRecOn generalizing i with
  | nil => simp [natOfBits]
  | append_singleton bits v ih =>
    rw [natOfBits_append_one]
    cases i with
    | zero =>
      cases v <;> simp [Nat.testBit_zero]
    | succ i =>
      rw [Nat.testBit_succ]
      have : (2 * natOfBits bits + v.toNat) / 2 = natOfBits bits := by
        cases v <;> (simp; try omega)
      rw [this, ih]
      simp

/-- The word of its own bits is itself (R40). -/
@[simp] theorem wordOfBits_bits24 (w : WireWord) : wordOfBits (bits24 w) = w := by
  apply BitVec.eq_of_getLsbD_eq
  intro i hi
  have hr : (bits24 w).reverse[i]? = some (w.getLsbD i) := by
    rw [List.getElem?_reverse (by simpa using hi), bits24_length, bits24_getElem? (by omega)]
    congr 2
    omega
  rw [wordOfBits, BitVec.getLsbD_ofNat, natOfBits_testBit, hr]
  simp [hi]

/-- 24 bits are the bits of their word. -/
theorem bits24_wordOfBits {bits : List Bool} (h : bits.length = 24) : bits24 (wordOfBits bits) = bits := by
  apply List.ext_getElem?
  intro k
  by_cases hk : k < 24
  · rw [bits24_getElem? hk]
    have hr : bits.reverse[23 - k]? = bits[k]? := by
      rw [List.getElem?_reverse (by omega)]
      congr 1
      omega
    have hs : bits[k]? = some bits[k] := by simp [h, hk]
    rw [wordOfBits, BitVec.getLsbD_ofNat, natOfBits_testBit, hr, hs]
    simp [show 23 - k < 24 by omega]
  · rw [List.getElem?_eq_none (by simpa using hk), List.getElem?_eq_none (by omega)]

/-! ## Symbols -/

@[simp] theorem sym_length (b : Build) (v : Bool) : (sym b v).length = b.tb := by
  cases v <;> (simp [sym, highLen, lowLen, Build.tb]; try omega)

@[simp] theorem symbols_nil (b : Build) : symbols b [] = [] := rfl

@[simp] theorem symbols_cons (b : Build) (v : Bool) (bits : List Bool) : symbols b (v :: bits) = sym b v ++ symbols b bits := by
  simp [symbols]

@[simp] theorem symbols_length (b : Build) (bits : List Bool) : (symbols b bits).length = bits.length * b.tb := by
  induction bits with
  | nil => simp
  | cons v bits ih => simp [ih, Nat.add_mul, Nat.add_comm]

/-- The level of a symbol in its k-th tick is DOUT's rule (R23, R110). -/
theorem sym_getElem? {b : Build} {v : Bool} {k : Nat} (h : k < b.tb) : (sym b v)[k]? = some (decide (k < highLen b v)) := by
  have hl : (sym b v).length = b.tb := sym_length b v
  unfold sym at *
  by_cases hk : k < highLen b v
  · rw [List.getElem?_append_left (by simpa using hk)]
    simp [hk]
  · rw [List.getElem?_append_right (by simpa using hk)]
    simp only [List.length_append, List.length_replicate] at hl
    simp only [List.length_replicate, List.getElem?_replicate, hk, decide_false]
    rw [if_pos (by omega)]

/-! ## Ticks in sequence -/

@[simp] theorem ticks_zero (s : State) : ticks 0 s = s := rfl

theorem ticks_succ (n : Nat) (s : State) : ticks (n + 1) s = ticks n (tick s) := rfl

theorem ticks_add (n m : Nat) (s : State) : ticks (n + m) s = ticks m (ticks n s) := by
  induction n generalizing s with
  | zero => simp
  | succ n ih => rw [Nat.succ_add, ticks_succ, ticks_succ, ih]

@[simp] theorem levels_zero (s : State) : levels 0 s = [] := rfl

theorem levels_succ (n : Nat) (s : State) : levels (n + 1) s = s.dout :: levels n (tick s) := rfl

theorem levels_add (n m : Nat) (s : State) : levels (n + m) s = levels n s ++ levels m (ticks n s) := by
  induction n generalizing s with
  | zero => simp
  | succ n ih => rw [Nat.succ_add, levels_succ, levels_succ, ih, ticks_succ]; rfl

@[simp] theorem levels_length (n : Nat) (s : State) : (levels n s).length = n := by
  induction n generalizing s with
  | zero => rfl
  | succ n ih => simp [levels_succ, ih]

/-- The record grows by the levels of the ticks (log 13). -/
theorem ticks_trace (n : Nat) (s : State) : (ticks n s).trace = s.trace ++ levels n s := by
  induction n generalizing s with
  | zero => simp
  | succ n ih => rw [ticks_succ, ih, levels_succ, tick_trace]; simp

/-- Ticks change the sequencer and the record, and nothing else (R114). -/
theorem ticks_eq (n : Nat) (s : State) : ticks n s = { s with seq := (ticks n s).seq, trace := (ticks n s).trace } := by
  induction n generalizing s with
  | zero => rfl
  | succ n ih => rw [ticks_succ, ih]; rfl

@[simp] theorem ticks_build (n : Nat) (s : State) : (ticks n s).build = s.build := by rw [ticks_eq]

end Sys2Proof.Machine
end

