-- ==== Sys2Proof/Tests/Slice0.lean ====
section
/-! SUPPORT. The model's own tests. `smoke_…`: what WellFormed refuses. `decodes_…`: words written out from 30_encoding.md. `test_…`: vectors
of 95_test_vectors.md (each names its id) or hand calculation from a rule, one step each. `witness_…`: a state and operands that meet every
hypothesis of the obligation of that name together. -/
namespace Sys2Proof.Tests
open Sys2Proof Sys2Proof.Machine

/-- The answer is a next state with this property. -/
def nextIs (o : Result) (p : State → Bool) : Bool :=
  match o with
  | .next t => p t
  | .fault _ => false
  | .refused _ => false

/-- The answer is this refusal. -/
def refusedWith (o : Result) (r : Refusal) : Bool :=
  match o with
  | .next _ => false
  | .fault _ => false
  | .refused r' => r' = r

/-- The strip of `CONFIGURE(n, 6, brt)` (R80). -/
def stripOf (n : U32) (brt : F32) : Strip := { ledCount := n, outputPin := 6, brightness := brt, pb := [] }

/-- The state after `CONFIGURE(n, 6, brt)` from reset. -/
def ready (n : U32) (brt : F32) : State := { State.reset with life := .ready (stripOf n brt) }

/-- A legal non-reference build, T1:T2:T3 = 1:1:1 (V4.2), with a low-hold of 3 ticks of 5 ms. -/
def quick : Build := { Build.reference with t1 := 1, t2 := 1, t3 := 1, tickPs := 5000000000, resetTicks := 3 }

/-- A state of the quick build that is sending these bits, `tck` ticks into the first. -/
def sending (bits : List Bool) (tck : Nat) : State :=
  { ready 1#32 0x3F800000#32 with build := quick, seq := { phase := .shift, txq := bits, tck := tck, hold := 0 } }

/-- A state of the quick build in the low-hold, which has run since `3 - hold` ticks. -/
def holding (hold : Nat) : State :=
  { ready 1#32 0x3F800000#32 with
    build := quick
    seq := { phase := .latch, txq := [], tck := 0, hold := hold }
    trace := List.replicate (3 - hold) false }

/-- The same state with moves to come. -/
def withMoves (moves : List Move) (s : State) : State := { s with schedule := moves }

/-- Four LEDs at full brightness, in IDLE: the state section 2.6 of the vectors starts from. -/
def four : State := ready 4#32 0x3F800000#32

/-- Its strip. -/
def fourStrip : Strip := stripOf 4#32 0x3F800000#32

/-! ## What is refused as ill formed -/

theorem smoke_legal_builds : Build.reference.legal = true ∧ quick.legal = true := by decide
theorem smoke_t1_zero : { Build.reference with t1 := 0 }.legal = false := by decide
theorem smoke_t2_zero : { Build.reference with t2 := 0 }.legal = false := by decide
theorem smoke_t3_zero : { Build.reference with t3 := 0 }.legal = false := by decide
theorem smoke_low_hold_short : { Build.reference with resetTicks := 79999 }.legal = false := by decide
theorem smoke_default_too_dark : { Build.reference with brtDefault := 0x3E4CCCCC#32 }.legal = false := by decide
theorem smoke_default_above_one : { Build.reference with brtDefault := 0x3F800001#32 }.legal = false := by decide
theorem smoke_pattern_on_cmd : Instr.sym1.wellFormed .cmd = false ∧ (Instr.word24 0#24).wellFormed .cmd = false := by decide
theorem smoke_command_on_wire : Instr.flush.wellFormed .symbol = false ∧ (Instr.send []).wellFormed .word24 = false := by decide
theorem smoke_undecodable :
    decodeCommand [] = .error .truncated ∧ decodeCommand [0b01000001#8] = .error .reservedBits ∧
    decodeCommand [2#8, 128#8, 0#8] = .error .overlong ∧ decodeCommand [7#8, 1#8, 2#8] = .error .badBit ∧
    decodeCommand [4#8, 0#8] = .error .trailing ∧
    decode .reference (.levels [true, false, true]) = .error .unknownPattern := ⟨rfl, rfl, rfl, rfl, rfl, rfl⟩

/-! ## Decoding, every constructor (tags of R70; operand bytes of log 3) -/

theorem decodes_configure :
    decodeCommand [0b00111000#8, 4#8, 0#8, 0#8, 0#8, 6#8, 0x00#8, 0x00#8, 0x00#8, 0x3F#8] =
      .ok (.configure (some 4#32) (some 6) (some 0x3F000000#32)) := rfl
theorem decodes_set : decodeCommand [0b00000001#8, 4#8, 10#8, 20#8, 30#8] = .ok (.set 2 ⟨10#8, 20#8, 30#8⟩) := rfl
theorem decodes_get : decodeCommand [0b00000010#8, 1#8] = .ok (.get (-1)) := rfl
theorem decodes_fill : decodeCommand [0b00000011#8, 255#8, 0#8, 0#8] = .ok (.fill red) := rfl
theorem decodes_clear : decodeCommand [0b00000100#8] = .ok .clear := rfl
theorem decodes_flush : decodeCommand [0b00000101#8] = .ok .flush := rfl
theorem decodes_encode :
    decodeCommand [0b00000110#8, 2#8, 1#8, 2#8, 3#8, 4#8, 5#8, 6#8, 0x33#8, 0x33#8, 0x33#8, 0x3F#8] =
      .ok (.encode [⟨1#8, 2#8, 3#8⟩, ⟨4#8, 5#8, 6#8⟩] 0x3F333333#32) := rfl
theorem decodes_send : decodeCommand [0b00000111#8, 2#8, 1#8, 0#8] = .ok (.send [true, false]) := rfl
/-- R61: `GGGGGGGGRRRRRRRRBBBBBBBB` of E3. -/
theorem decodes_word24 : decode .reference (.word 0b000101000000101000011110#24) = .ok (.word24 0x140A1E#24) := rfl
/-- R63, E10: `1100000000`. -/
theorem decodes_sym0 :
    decode .reference (.levels [true, true, false, false, false, false, false, false, false, false]) = .ok .sym0 := rfl
/-- R63, E10: `1111111000`. -/
theorem decodes_sym1 :
    decode .reference (.levels [true, true, true, true, true, true, true, false, false, false]) = .ok .sym1 := rfl
/-- R63: `0^K`, K >= RESET_TICKS; here RESET_TICKS = 3 and K = 4. -/
theorem decodes_reset : decode quick (.levels [false, false, false, false]) = .ok .reset := rfl

/-! ## Arithmetic -/

/-- V2.1 to V2.5, V2.7, V2.12, V2.19 to V2.24, V2.27, V2.29, V2.30. -/
theorem test_scale_vectors :
    [(255#8, 0x3E4CCCCD#32), (3#8, 0x3E4CCCCD#32), (255#8, 0x3F000000#32), (0#8, 0x3F000000#32), (255#8, 0x3F800000#32),
      (255#8, 0x80000000#32), (5#8, 0x3E4CCCCD#32), (255#8, 0x3F333333#32), (10#8, 0x3F333333#32), (100#8, 0x3F333333#32),
      (250#8, 0x3F333333#32), (10#8, 0x3F666666#32), (100#8, 0x3F666666#32), (255#8, 0x3F7FFFFF#32), (255#8, 0x00000001#32),
      (255#8, 0x3B808081#32)].map (fun x => scale x.1 x.2) =
    [51#8, 0#8, 127#8, 0#8, 255#8, 0#8, 1#8, 178#8, 7#8, 70#8, 175#8, 9#8, 90#8, 254#8, 0#8, 1#8] := by decide

/-- V2.20 and V2.24 under the other reading, and V2.31 to V2.34, V1.6. -/
theorem test_exact_reading_and_validity :
    scaleExact 10#8 0x3F333333#32 = 6#8 ∧ scaleExact 100#8 0x3F666666#32 = 89#8 ∧
    [0x3F800001#32, 0x7FC00000#32, 0x7F800000#32, 0xBF800000#32, 0x80000001#32, 0x80000000#32, 0x3F800000#32, 0x00000001#32].map
      validBrt = [false, false, false, false, false, true, true, true] := by decide

/-- V3.1, V3.2, V3.7, V3.11, V3.12, V3.14. -/
theorem test_wire_words :
    word .binary32 ⟨10#8, 20#8, 30#8⟩ 0x3F800000#32 = 0x140A1E#24 ∧ word .binary32 red 0x3F000000#32 = 0x007F00#24 ∧
    word .binary32 ⟨255#8, 128#8, 3#8⟩ 0x3E4CCCCD#32 = 0x193300#24 ∧ word .binary32 ⟨10#8, 20#8, 30#8⟩ 0x3F333333#32 = 0x0E0715#24 ∧
    word .binary32 ⟨0#8, 255#8, 0#8⟩ 0x3F800000#32 = 0xFF0000#24 ∧ word .binary32 red 0x3F800000#32 = 0x00FF00#24 := by decide

/-! ## The instructions -/

/-- V1.1, from the bytes on `cmd`, with the brightness left to its default. -/
theorem test_configure :
    nextIs (step (placeCommand .host [0b00011000#8, 16#8, 0#8, 0#8, 0#8, 6#8] .reset)) (fun t =>
      t.life = .ready (stripOf 16#32 0x3E4CCCCD#32) && t.rsp = some .ok && t.esr = 0#3 && !t.busy) = true := by decide
/-- V1.4: the first check wins. -/
theorem test_configure_error :
    nextIs (exec (.configure (some 0#32) (some 6) (some 0x7FC00000#32)) .reset) (fun t =>
      t.life = .unconfigured && t.rsp = some (.error (.configuration (.ledCount 0#32))) && t.esr = 0b001#3) = true := by decide
/-- V6.1 and V6.2, and the canonical form: the last entry back to BLACK is unlisted. -/
theorem test_set :
    nextIs (exec (.set 3 red) (ready 4#32 0x3F800000#32)) (fun t =>
      t.life = .ready { stripOf 4#32 0x3F800000#32 with pb := [(3, red)] } &&
        nextIs (exec (.set 3 black) t) (fun u => u.life = (ready 4#32 0x3F800000#32).life)) = true := by decide
/-- V6.3 to V6.5: no wrap, no counting from the end. -/
theorem test_set_out_of_range :
    [4, -1, 4294967296].all (fun i => nextIs (exec (.set i red) (ready 4#32 0x3F800000#32)) (fun t =>
      t.life = (ready 4#32 0x3F800000#32).life && t.rsp = some (.error (.indexOutOfRange i)) && t.esr = 0b100#3)) = true := by decide
/-- V6.9. -/
theorem test_get :
    nextIs (exec (.get 2) (ready 4#32 0x3F800000#32)) (fun t => t.rsp = some (.color ⟨0#8, 0#8, 0#8⟩)) = true := by decide
/-- V6.7. -/
theorem test_get_out_of_range :
    nextIs (exec (.get 4) (ready 4#32 0x3F800000#32)) (fun t => t.rsp = some (.error (.indexOutOfRange 4))) = true := by decide
/-- V6.6. -/
theorem test_fill :
    nextIs (exec (.fill ⟨9#8, 8#8, 7#8⟩) (ready 4#32 0x3F800000#32)) (fun t =>
      [0, 1, 2, 3].all fun i => nextIs (exec (.get i) t) (fun u => u.rsp = some (.color ⟨9#8, 8#8, 7#8⟩))) = true := by decide
/-- V6.10's case for FILL: legal while BUSY = 1, the sequencer untouched. -/
theorem test_fill_while_busy :
    nextIs (exec (.fill red) (sending [true, false] 1)) (fun t =>
      t.rsp = some .ok && t.seq = (sending [true, false] 1).seq) = true := by decide
/-- V6.8. -/
theorem test_clear :
    nextIs (exec .clear { ready 4#32 0x3F800000#32 with life := .ready { stripOf 4#32 0x3F800000#32 with
      pb := [(0, red), (1, ⟨1#8, 2#8, 3#8⟩)] } }) (fun t => t.life = (ready 4#32 0x3F800000#32).life) = true := by decide
set_option maxRecDepth 4000 in
/-- P2, line 4: the 48 bits, as two words. -/
theorem test_flush :
    nextIs (exec .flush { ready 2#32 0x3E4CCCCD#32 with life := .ready { stripOf 2#32 0x3E4CCCCD#32 with
      pb := [(0, ⟨255#8, 128#8, 3#8⟩), (1, ⟨10#8, 20#8, 30#8⟩)] } }) (fun t =>
      t.seq.phase = .shift && wordOfBits (t.seq.txq.take 24) = 0x193300#24 && wordOfBits (t.seq.txq.drop 24) = 0x040206#24 &&
        t.seq.txq.length = 48) = true := by decide
/-- V7.10: BUSY before UNAVAILABLE. -/
theorem test_flush_busy :
    nextIs (exec .flush { sending [true] 0 with periphAvail := false }) (fun t =>
      t.rsp = some (.error (.hardware .busy)) && t.esr = 0b010#3 && t.seq = (sending [true] 0).seq) = true := by decide
set_option maxRecDepth 4000 in
/-- P5, line 5: the operand's frame, PB untouched. -/
theorem test_encode :
    nextIs (exec (.encode [⟨255#8, 255#8, 255#8⟩, black] 0x3F000000#32) (ready 2#32 0x3F000000#32)) (fun t =>
      wordOfBits (t.seq.txq.take 24) = 0x7F7F7F#24 && t.seq.txq.drop 24 = List.replicate 24 false &&
        t.life = (ready 2#32 0x3F000000#32).life) = true := by decide
/-- V7.5: LENGTH is checked first. -/
theorem test_encode_error :
    nextIs (exec (.encode [red, red, red] 0x7FC00000#32) (ready 4#32 0x3F800000#32)) (fun t =>
      t.rsp = some (.error (.configuration (.length 3 4#32))) && t.esr = 0b001#3 && !t.busy) = true := by decide
/-- V5.1, boundary 0, and the first 20 levels. -/
theorem test_send :
    nextIs (exec (.send [true, false]) { ready 1#32 0x3F800000#32 with issuer := .frontEnd }) (fun t =>
      t.seq = { phase := .shift, txq := [true, false], tck := 0, hold := 0 } &&
        levels 20 t = [true, true, true, true, true, true, true, false, false, false,
          true, true, false, false, false, false, false, false, false, false]) = true := by decide
/-- V5.2, V7.12: no bits go straight to the low-hold; a host's SEND is refused. -/
theorem test_send_corners :
    nextIs (exec (.send []) { ready 1#32 0x3F800000#32 with issuer := .frontEnd }) (fun t =>
      t.seq = { phase := .latch, txq := [], tck := 0, hold := 80000 }) = true ∧
    refusedWith (exec (.send [true]) (ready 1#32 0x3F800000#32)) .sendFromHost = true := by decide
/-- V4.7, at 1:1:1: `110`, 22 times `100`, `110`; then the low-hold. -/
theorem test_word24 :
    nextIs (exec (.word24 0x800001#24) (sending (true :: (List.replicate 22 false ++ [true])) 0)) (fun t =>
      t.trace.take 6 = [true, true, false, true, false, false] && t.trace.drop 66 = [true, false, false, true, true, false] &&
        t.trace.length = 72 && t.seq = { phase := .latch, txq := [], tck := 0, hold := 3 }) = true := by decide
/-- V4.2, V4.1; from the middle of a symbol, only what is left of it. -/
theorem test_sym0 :
    nextIs (exec .sym0 (sending [false, true] 1)) (fun t =>
      t.trace = [false, false] && t.seq = { phase := .shift, txq := [true], tck := 0, hold := 0 }) = true := by decide
theorem test_sym1 :
    nextIs (exec .sym1 (sending [true] 0)) (fun t =>
      t.trace = [true, true, false] && t.seq = { phase := .latch, txq := [], tck := 0, hold := 3 }) = true := by decide
theorem test_sym1_off_position : refusedWith (exec .sym1 (sending [false] 0)) .offPattern = true := by decide
/-- R112: what is left of the low-hold, then idle. -/
theorem test_reset :
    nextIs (exec .reset (holding 2)) (fun t => t.trace = [false, false, false] && t.seq = .idle && !t.busy) = true := by decide

/-! ## The step -/

/-- V1.9, V1.8 and a second host (R181); the front end issues SEND only (R70, R52). -/
theorem test_refusals :
    refusedWith (step (placeCommand .host [5#8] .reset)) .unconfigured = true ∧
    refusedWith (step (placeCommand .host [0#8] (ready 1#32 0#32))) .alreadyConfigured = true ∧
    refusedWith (step (placeCommand .secondHost [4#8] (ready 1#32 0#32))) .secondHost = true ∧
    refusedWith (step (placeCommand .frontEnd [4#8] (ready 1#32 0#32))) .frontEnd = true := by decide
/-- V5.1: tick 9 ends the symbol of the 1. -/
theorem test_tick :
    nextIs (step { ready 1#32 0#32 with seq := { phase := .shift, txq := [true, false], tck := 9, hold := 0 } }) (fun t =>
      t.seq = { phase := .shift, txq := [false], tck := 0, hold := 0 } && t.trace = [false] && t.dout) = true := by decide
/-- The whole of a frame of one bit, read back from the line (R65). -/
theorem test_read_back :
    readFrame quick 0 0 (levels 6 (sending [true] 0)) = some [true] := by decide
/-- The table's rows as words after reset (log 24): the configuration runs, and so does a wire pattern. -/
theorem test_fetch_word :
    nextIs (step (State.reset.withFetchWord 8 0)) (fun t => t.life = .ready (stripOf 16#32 0x3E4CCCCD#32)) = true ∧
    nextIs (step (State.reset.withFetchWord 10 0b1111111000)) (fun t =>
      t.trace = [true, true, true, true, true, true, true, false, false, false]) = true := by decide

/-! ## The host's software -/

/-- V8.1 and E5. -/
theorem test_fade :
    fadeColors ⟨100#8, 50#8, 7#8⟩ black 4 = [⟨75#8, 38#8, 6#8⟩, ⟨50#8, 26#8, 5#8⟩, ⟨25#8, 14#8, 4#8⟩, ⟨0#8, 2#8, 3#8⟩] ∧
    (fadeColors black ⟨100#8, 0#8, 0#8⟩ 7).map (fun c => c.r) = [14#8, 28#8, 42#8, 56#8, 70#8, 84#8, 98#8] := by decide
/-- V8.3. -/
theorem test_wheel :
    [1, 84, 86, 169, 171, 254, 256, -1].map wheel =
      [⟨252#8, 3#8, 0#8⟩, ⟨3#8, 252#8, 0#8⟩, ⟨0#8, 252#8, 3#8⟩, ⟨0#8, 3#8, 252#8⟩, ⟨3#8, 0#8, 252#8⟩, ⟨252#8, 0#8, 3#8⟩,
        black, black] := by decide

/-! ## Witnesses: every hypothesis is met, at the boundaries of its range -/

theorem fourStrip_inv : fourStrip.Inv four.build := ⟨by decide, by decide, by decide⟩
theorem four_inv : four.Inv := ⟨by decide, .inl ⟨rfl, rfl, rfl, rfl⟩, fourStrip_inv⟩
theorem strip_inv_quick : (stripOf 1#32 0x3F800000#32).Inv quick := ⟨by decide, by decide, by decide⟩
theorem sending_inv : (sending [true, false] 2).Inv :=
  ⟨by decide, .inr (.inl ⟨rfl, by decide, by decide, rfl⟩), strip_inv_quick⟩
theorem sending_last_inv : (sending [false] 2).Inv :=
  ⟨by decide, .inr (.inl ⟨rfl, by decide, by decide, rfl⟩), strip_inv_quick⟩
theorem sending_first_inv (bits : List Bool) (h : bits ≠ []) : (sending bits 0).Inv :=
  ⟨(by decide : quick.legal = true), .inr (.inl ⟨rfl, h, (by decide : 0 < quick.tb), rfl⟩), strip_inv_quick⟩
theorem noReset_of {s : State} (h : decide (s.schedule.head? = some .reset) = false) : s.noReset := of_decide_eq_false h
theorem holding_inv : (holding 1).Inv := ⟨by decide, .inr (.inr ⟨rfl, rfl, rfl, by decide, by decide⟩), strip_inv_quick⟩

theorem witness_ResetInAnyStateCutsTheFrame :
    (withMoves [.reset, .waitIdle] (sending [true, false] 1)).schedule = .reset :: [.waitIdle] := rfl

theorem witness_StepRunsTheCommandOnThePort :
    (placeCommand .host [5#8] four).schedule = .command .host [5#8] :: [] ∧ decodeCommand [5#8] = .ok .flush := ⟨rfl, rfl⟩

theorem witness_StepRunsTheWirePatternAtThePosition :
    (let s := withMoves [.wire .pattern] (sending [true] 1)
     s.schedule = .wire .pattern :: [] ∧ s.seq.phase = .shift ∧ s.seq.txq = true :: []) ∧
    (let s := withMoves [.wire .word] (holding 3); s.schedule = .wire .word :: [] ∧ s.seq.phase = .latch) ∧
    (let s := withMoves [.wire .word] (sending (bits24 0x800001#24 ++ [true]) 0)
     s.schedule = .wire .word :: [] ∧ s.seq.phase = .shift ∧ s.seq.txq = bits24 0x800001#24 ++ [true]) ∧
    (let s := withMoves [.wire .pattern] four; s.schedule = .wire .pattern :: [] ∧ s.seq.phase = .idle) :=
  ⟨⟨rfl, rfl, rfl⟩, ⟨rfl, rfl⟩, ⟨rfl, rfl, rfl⟩, ⟨rfl, rfl⟩⟩

theorem witness_StepWithoutInstruction :
    four.schedule = [] ∧ (withMoves [.wait 1] four).schedule = .wait (0 + 1) :: [] ∧
    (withMoves [.wait 0] four).schedule = .wait 0 :: [] ∧
    ((withMoves [.waitIdle] (holding 1)).schedule = .waitIdle :: [] ∧ (holding 1).busy = true) ∧
    ((withMoves [.waitIdle] four).schedule = .waitIdle :: [] ∧ four.busy = false) ∧
    (withMoves [.periphAvail false] four).schedule = .periphAvail false :: [] := ⟨rfl, rfl, rfl, ⟨rfl, rfl⟩, ⟨rfl, rfl⟩, rfl⟩

/-- The least led_count and the greatest brightness given; every option left out. -/
theorem witness_ConfigureConstructsTheStrip :
    State.reset.issuer = .host ∧ State.reset.life = .unconfigured ∧
    (optionOr 16#32 (some 1#32) ≠ 0#32 ∧ validBrt (optionOr State.reset.build.brtDefault (some 0x3F800000#32)) = true) ∧
    (optionOr 16#32 none ≠ 0#32 ∧ validBrt (optionOr State.reset.build.brtDefault none) = true) := by decide

theorem witness_ConfigureReportsLedCountThenBrightness :
    State.reset.issuer = .host ∧ State.reset.life = .unconfigured ∧ 0#32 = 0#32 ∧
    (1#32 ≠ 0#32 ∧ validBrt 0x3F800001#32 = false) := by decide

theorem witness_ConfigurationIsFixedUntilReset :
    (placeCommand .host [3#8, 1#8, 2#8, 3#8] four).noReset ∧ (placeCommand .host [3#8, 1#8, 2#8, 3#8] four).life = .ready fourStrip ∧
    (∃ t, step (placeCommand .host [3#8, 1#8, 2#8, 3#8] four) = .next t) ∧ (withMoves [.reset] four).schedule = .reset :: [] :=
  ⟨noReset_of rfl, rfl, ⟨_, rfl⟩, rfl⟩

theorem witness_SetWritesExactlyItsEntry :
    four.issuer = .host ∧ four.life = .ready fourStrip ∧ fourStrip.Inv four.build ∧
    ((0 : Int) ≤ 0 ∧ (0 : Int) < fourStrip.ledCount.toNat) ∧ ((0 : Int) ≤ 3 ∧ (3 : Int) < fourStrip.ledCount.toNat) :=
  ⟨by decide, rfl, fourStrip_inv, by decide, by decide⟩

theorem witness_IndexOutsideTheBufferErrs :
    four.issuer = .host ∧ four.life = .ready fourStrip ∧
    ((-1 : Int) < 0 ∨ (fourStrip.ledCount.toNat : Int) ≤ -1) ∧ ((4 : Int) < 0 ∨ (fourStrip.ledCount.toNat : Int) ≤ 4) := by decide

theorem witness_GetRespondsTheEntry :
    four.issuer = .host ∧ four.life = .ready fourStrip ∧
    ((0 : Int) ≤ 0 ∧ (0 : Int) < fourStrip.ledCount.toNat) ∧ ((0 : Int) ≤ 3 ∧ (3 : Int) < fourStrip.ledCount.toNat) := by decide

theorem witness_FillWritesEveryEntry :
    four.issuer = .host ∧ four.life = .ready fourStrip ∧ fourStrip.Inv four.build ∧ 3 < fourStrip.ledCount.toNat ∧
    fourStrip.ledCount.toNat ≤ 4 := ⟨by decide, rfl, fourStrip_inv, by decide, by decide⟩

theorem witness_ClearIsFillWithBlack :
    four.issuer = .host ∧ four.life = .ready fourStrip ∧ fourStrip.Inv four.build ∧ 3 < fourStrip.ledCount.toNat ∧
    fourStrip.ledCount.toNat ≤ 4 := ⟨by decide, rfl, fourStrip_inv, by decide, by decide⟩

theorem witness_EqualReadsAreEqualBuffers :
    Memory.wf (fun _ => black) 4 [(3, red)] = true ∧
    ∀ i, i < 4 → Memory.read (fun _ => black) [(3, red)] i = Memory.read (fun _ => black) [(3, red)] i := ⟨by decide, fun _ _ => rfl⟩

theorem witness_EncodeLoadsTheFrame :
    four.issuer = .host ∧ four.life = .ready fourStrip ∧ fourStrip.ledCount ≠ 0#32 ∧
    [red, red, red, black].length = fourStrip.ledCount.toNat ∧ validBrt 0x80000000#32 = true ∧ four.seq.phase = .idle ∧
    four.periphAvail = true := by decide

theorem witness_EncodeReportsTheFirstError :
    four.issuer = .host ∧ four.life = .ready fourStrip ∧
    ([red, red, red].length ≠ fourStrip.ledCount.toNat ∧ [red, red, red, red, red].length ≠ fourStrip.ledCount.toNat) ∧
    ([red, red, red, red].length = fourStrip.ledCount.toNat ∧ validBrt 0x80000001#32 = false) ∧
    (let s := sending [true] 0
     s.issuer = .host ∧ s.life = .ready (stripOf 1#32 0x3F800000#32) ∧ [red].length = (stripOf 1#32 0x3F800000#32).ledCount.toNat ∧
     validBrt 0x3F800000#32 = true ∧ s.seq.phase ≠ .idle) ∧
    (let s := { four with periphAvail := false }
     s.life = .ready fourStrip ∧ [red, red, red, red].length = fourStrip.ledCount.toNat ∧ validBrt 0#32 = true ∧
     s.seq.phase = .idle ∧ s.periphAvail = false) := by decide

theorem witness_FlushSendsThePixelBuffer :
    four.issuer = .host ∧ four.life = .ready fourStrip ∧ fourStrip.Inv four.build ∧ four.seq.phase = .idle ∧
    four.periphAvail = true := ⟨by decide, rfl, fourStrip_inv, rfl, rfl⟩

theorem witness_FlushFailsOnlyWithHardwareError :
    (let s := holding 1
     s.issuer = .host ∧ s.life = .ready (stripOf 1#32 0x3F800000#32) ∧ (stripOf 1#32 0x3F800000#32).Inv s.build ∧
     s.seq.phase ≠ .idle) ∧
    (let s := { four with periphAvail := false }
     s.issuer = .host ∧ s.life = .ready fourStrip ∧ fourStrip.Inv s.build ∧ s.seq.phase = .idle ∧ s.periphAvail = false) ∧
    (four.issuer = .host ∧ four.life = .ready fourStrip ∧ fourStrip.Inv four.build ∧ four.seq.phase = .idle ∧
     four.periphAvail = true) :=
  ⟨⟨rfl, rfl, strip_inv_quick, by decide⟩, ⟨rfl, rfl, fourStrip_inv, rfl, rfl⟩, ⟨rfl, rfl, fourStrip_inv, rfl, rfl⟩⟩

/-- Clause by clause: the least and greatest brightness; a product that is an integer, 2 x 0.5 = 1. -/
theorem witness_ScaleLaws :
    ScaleReading.binary32 ≠ .free ∧ validBrt 0x00000000#32 = true ∧ validBrt 0x3F800000#32 = true ∧ (0#8).toNat ≤ (255#8).toNat ∧
    magnitude 0x00000000#32 ≤ magnitude 0x3F800000#32 ∧ (2#8).toNat * magnitude 0x3F000000#32 = 1 * 2 ^ 149 := by decide

theorem witness_ReadingsDifferByAtMostOne : validBrt 0x3F333333#32 = true := by decide

/-- A tie: the smallest subnormal times 0.5 lies half way between 0 and the smallest subnormal. -/
theorem witness_ProductIsRoundedToNearestEven :
    (0x00000001#32).toNat < 0x7F800000 ∧ (0x3F000000#32).toNat < 0x7F800000 ∧
    magnitude 0x00000001#32 * magnitude 0x3F000000#32 ≤ magnitude 0x7F7FFFFF#32 * 2 ^ 149 ∧
    0x00000001#32 ≠ mul32 0x00000001#32 0x3F000000#32 ∧
    ((magnitude (mul32 0x00000001#32 0x3F000000#32) : Int) * 2 ^ 149 - magnitude 0x00000001#32 * magnitude 0x3F000000#32).natAbs =
      ((magnitude 0x00000001#32 : Int) * 2 ^ 149 - magnitude 0x00000001#32 * magnitude 0x3F000000#32).natAbs := by decide

theorem witness_FrameBitPosition : [red, black][0 / 24]? = some red ∧ [red, black][47 / 24]? = some black := ⟨rfl, rfl⟩

theorem witness_SendLoadsTheSequencer :
    (let s := { four with issuer := .frontEnd }
     s.issuer = .frontEnd ∧ s.life = .ready fourStrip ∧ s.seq.phase = .idle ∧ s.periphAvail = true) ∧
    [true] ≠ [] ∧ ([] : List Bool) = [] := by decide

theorem witness_SendReportsBusyThenUnavailable :
    (let s := { sending [true] 0 with issuer := .frontEnd }
     s.issuer = .frontEnd ∧ s.life = .ready (stripOf 1#32 0x3F800000#32) ∧ s.seq.phase ≠ .idle) ∧
    (let s := { four with issuer := .frontEnd, periphAvail := false }
     s.issuer = .frontEnd ∧ s.life = .ready fourStrip ∧ s.seq.phase = .idle ∧ s.periphAvail = false) := by decide

/-- The clauses meet at TCK = TB - 1 = 2 and at HOLD = 1. -/
theorem witness_TickMovesTheSequencerOnly :
    (four.schedule = [] ∧ four.seq.phase = .idle) ∧
    (let s := sending [true] 1; s.schedule = [] ∧ s.seq.phase = .shift ∧ s.seq.tck < s.build.tb - 1) ∧
    (let s := sending [true, false] 2
     s.schedule = [] ∧ s.seq.phase = .shift ∧ s.build.tb - 1 ≤ s.seq.tck ∧ s.seq.txq = true :: false :: []) ∧
    (let s := sending [true] 2; s.schedule = [] ∧ s.seq.phase = .shift ∧ s.build.tb - 1 ≤ s.seq.tck ∧ s.seq.txq = [true]) ∧
    (let s := holding 2; s.schedule = [] ∧ s.seq.phase = .latch ∧ 1 < s.seq.hold) ∧
    (let s := holding 1; s.schedule = [] ∧ s.seq.phase = .latch ∧ s.seq.hold ≤ 1) := by decide

theorem witness_LineLevelAndBusy :
    ((sending [true] 1).seq.phase = .shift ∧ (sending [true] 1).seq.txq = true :: []) ∧
    ((sending [false] 1).seq.phase = .shift ∧ (sending [false] 1).seq.txq = false :: []) ∧ (holding 3).seq.phase ≠ .shift := by decide

/-- Both loads of R111, and the last p, k and j. -/
theorem witness_MachineEmitsTheWaveform :
    quick.legal = true ∧
    (sending [true, false] 0).seq = (if [true, false] = [] then { phase := .latch, txq := [], tck := 0, hold := quick.resetTicks }
      else { phase := .shift, txq := [true, false], tck := 0, hold := 0 }) ∧
    (holding 3).seq = (if ([] : List Bool) = [] then { phase := .latch, txq := [], tck := 0, hold := quick.resetTicks }
      else { phase := .shift, txq := [], tck := 0, hold := 0 }) ∧
    1 < [true, false].length ∧ [true, false][1]? = some false ∧ 2 < quick.tb ∧ 2 < quick.resetTicks := by decide

theorem witness_BusyLastsTheFrameAndTheLowHold :
    quick.legal = true ∧
    (sending [true, false] 0).seq = (if [true, false] = [] then { phase := .latch, txq := [], tck := 0, hold := quick.resetTicks }
      else { phase := .shift, txq := [true, false], tck := 0, hold := 0 }) := by decide

set_option maxRecDepth 4000 in
/-- The first bit of a frame, and its last. -/
theorem witness_PositionViewsNameTheBitBeingSent :
    0 < 24 * [red].length ∧ (sending (frameBits .binary32 [red] 0#32) 0).seq.txq = (frameBits .binary32 [red] 0#32).drop 0 ∧
    23 < 24 * [red].length ∧ (sending [false] 0).seq.txq = (frameBits .binary32 [red] 0#32).drop 23 := ⟨by decide, rfl, by decide, by decide⟩

theorem witness_WaitIdleEnds :
    (withMoves [.waitIdle] (sending [true, false] 2)).Inv ∧
    (withMoves [.waitIdle] (sending [true, false] 2)).schedule = .waitIdle :: [] := ⟨sending_inv, rfl⟩

theorem witness_FrameReadsBack : quick.legal = true ∧ quick.t2 + quick.t3 < quick.resetTicks := by decide

theorem witness_SymbolsOnTheLine :
    ((sending [false] 2).seq.phase = .shift ∧ (sending [false] 2).seq.txq = false :: []) ∧
    ((sending [true, false] 0).seq.phase = .shift ∧ (sending [true, false] 0).seq.txq = true :: [false]) := by decide

/-- A word with a bit after it, from the middle of its first symbol; and the last word of a frame. -/
theorem witness_WordOnTheLine :
    (let s := sending (bits24 0x800001#24 ++ [true]) 2
     s.seq.phase = .shift ∧ s.seq.txq = (List.range 24).map (fun k => (0x800001#24).getLsbD (23 - k)) ++ [true]) ∧
    (let s := sending (bits24 0x800001#24) 0
     s.seq.phase = .shift ∧ s.seq.txq = (List.range 24).map (fun k => (0x800001#24).getLsbD (23 - k)) ++ []) :=
  ⟨⟨rfl, rfl⟩, ⟨rfl, rfl⟩⟩

theorem witness_LowHoldOnTheLine : (holding 1).seq.phase = .latch ∧ (holding 3).seq.phase = .latch := ⟨rfl, rfl⟩

theorem witness_PatternsOffPositionAreRefused :
    four.seq.phase ≠ .shift ∧ four.seq.phase ≠ .latch ∧ (sending [true] 0).seq.txq.head? ≠ some false ∧
    (sending [false] 0).seq.txq.head? ≠ some true ∧ (sending [true] 0).seq.txq.take 24 ≠ bits24 0#24 := by decide

theorem witness_PatternsAreTheirTicks :
    ((sending [false] 2).Inv ∧ ∃ t, exec .sym0 (sending [false] 2) = .next t) ∧
    ((sending [true, false] 2).Inv ∧ ∃ t, exec .sym1 (sending [true, false] 2) = .next t) ∧
    ((sending (bits24 0x800001#24) 0).Inv ∧ ∃ t, exec (.word24 0x800001#24) (sending (bits24 0x800001#24) 0) = .next t) ∧
    ((holding 1).Inv ∧ ∃ t, exec .reset (holding 1) = .next t) :=
  ⟨⟨sending_last_inv, _, rfl⟩, ⟨sending_inv, _, rfl⟩, ⟨sending_first_inv _ (by decide), _, rfl⟩, ⟨holding_inv, _, rfl⟩⟩

theorem witness_RefusedCommands :
    Instr.flush.format = .cmd ∧ { four with issuer := .secondHost }.issuer = .secondHost ∧ four.issuer = .host ∧
    ({ four with issuer := .frontEnd }.issuer = .frontEnd ∧ ∀ bits, Instr.flush ≠ .send bits) ∧
    (State.reset.issuer = .host ∧ State.reset.life = .unconfigured ∧ ∀ n pin brt, Instr.flush ≠ .configure n pin brt) ∧
    ({ State.reset with issuer := .frontEnd }.issuer = .frontEnd ∧ { State.reset with issuer := .frontEnd }.life = .unconfigured) ∧
    (four.issuer = .host ∧ four.life = .ready fourStrip) := by
  refine ⟨rfl, rfl, rfl, ⟨rfl, ?_⟩, ⟨rfl, rfl, ?_⟩, ⟨rfl, rfl⟩, rfl, rfl⟩ <;> intros <;> nofun

theorem witness_HostCommandsAlwaysComplete :
    four.issuer = .host ∧ four.life = .ready fourStrip ∧ (Instr.set 4 red).format = .cmd ∧
    (∀ n pin brt, Instr.set 4 red ≠ .configure n pin brt) ∧ ∀ bits, Instr.set 4 red ≠ .send bits := by
  refine ⟨rfl, rfl, rfl, ?_, ?_⟩ <;> intros <;> nofun

theorem witness_ErrorsChangeOnlyEsrAndTheResponse :
    (Instr.get 4).format = .cmd ∧
    ∃ t, exec (.get 4) four = .next t ∧ t.rsp = some (.error (.indexOutOfRange 4)) := ⟨rfl, _, rfl, rfl⟩

theorem witness_WhichCommandRaisesWhat :
    (holding 1).Inv ∧ Instr.flush.format = .cmd ∧
    ∃ t, exec .flush (holding 1) = .next t ∧ t.rsp = some (.error (.hardware .busy)) := ⟨holding_inv, rfl, _, rfl, rfl⟩

theorem witness_EsrBitsAreSticky :
    (placeCommand .host [2#8, 1#8] four).noReset ∧ ∃ t, step (placeCommand .host [2#8, 1#8] four) = .next t := ⟨noReset_of rfl, _, rfl⟩

theorem witness_StepKeepsTheInvariant :
    (placeCommand .host [5#8] four).Inv ∧ ∃ t, step (placeCommand .host [5#8] four) = .next t := ⟨four_inv, _, rfl⟩

theorem witness_BuildNeverChanges : ∃ t, step (withMoves [.reset] four) = .next t := ⟨_, rfl⟩

/-- All three: an accepted FLUSH, the tick that ends the last symbol, the tick that ends the low-hold. -/
theorem witness_PhaseTransitions :
    ((placeCommand .host [5#8] four).Inv ∧ (placeCommand .host [5#8] four).noReset ∧
      ∃ t, step (placeCommand .host [5#8] four) = .next t ∧ (placeCommand .host [5#8] four).seq.phase ≠ t.seq.phase) ∧
    ((sending [false] 2).Inv ∧ (sending [false] 2).noReset ∧
      ∃ t, step (sending [false] 2) = .next t ∧ (sending [false] 2).seq.phase ≠ t.seq.phase) ∧
    ((holding 1).Inv ∧ (holding 1).noReset ∧ ∃ t, step (holding 1) = .next t ∧ (holding 1).seq.phase ≠ t.seq.phase) := by
  refine ⟨⟨four_inv, noReset_of rfl, _, rfl, ?_⟩, ⟨sending_last_inv, noReset_of rfl, _, rfl, by decide⟩,
    ⟨holding_inv, noReset_of rfl, _, rfl, by decide⟩⟩
  decide

theorem witness_QueuedBitsAreNeverChanged :
    (placeCommand .host [4#8] (sending [true, false] 2)).noReset ∧ (sending [true, false] 2).seq.phase = .shift ∧
    ∃ t, step (placeCommand .host [4#8] (sending [true, false] 2)) = .next t := ⟨noReset_of rfl, rfl, _, rfl⟩

theorem witness_CommandsNeverTouchABusySequencer :
    Instr.flush.format = .cmd ∧ (holding 1).busy = true ∧ ∃ t, exec .flush (holding 1) = .next t := ⟨rfl, rfl, _, rfl⟩

/-- The last tick of a low-hold that has been low so far. -/
theorem witness_BusyEndsAfterTheLowHold :
    (holding 1).Inv ∧ (holding 1).LowHeld ∧ (holding 1).noReset ∧
    ∃ t, step (holding 1) = .next t ∧ (holding 1).busy = true ∧ t.busy = false :=
  ⟨holding_inv, fun _ => List.suffix_refl _, noReset_of rfl, _, rfl, rfl, rfl⟩

theorem witness_TheRecordIsNeverRead :
    (∃ t, step four = .next t) ∧ step (placeCommand .host [5#8] .reset) = .refused .unconfigured := ⟨⟨_, rfl⟩, rfl⟩

theorem witness_TheOutputPinIsNeverRead :
    (placeCommand .host [5#8] four).noReset ∧ (placeCommand .host [5#8] four).life = .ready fourStrip ∧
    ∃ t, step (placeCommand .host [5#8] four) = .next t := ⟨noReset_of rfl, rfl, _, rfl⟩

theorem witness_DecodeOfEncode : Build.reference.legal = true := by decide

theorem witness_EncodeOfDecode : decodeCommand [1#8, 7#8, 0#8, 255#8, 128#8] = .ok (.set (-4) ⟨0#8, 255#8, 128#8⟩) := rfl

theorem witness_FadeColoursStayBetweenTheEnds : 1 ≤ 1 ∧ 1 ≤ 7 ∧ 1 ≤ 7 ∧ 7 ≤ 7 := by decide

theorem witness_FadesAsCommands : 0 < 1 := by decide

theorem witness_WheelStatedValues : ((-1 : Int) < 0 ∨ (255 : Int) < -1) ∧ ((256 : Int) < 0 ∨ (255 : Int) < 256) := by decide

/-- A command of the host, and a SEND of the front end. -/
theorem witness_CommandsComeFromOneHost :
    (let s := placeCommand .host [5#8] four
     s.schedule = .command .host [5#8] :: [] ∧ decodeCommand [5#8] = .ok .flush ∧ ∃ t, step s = .next t) ∧
    (let s := placeCommand .frontEnd [7#8, 1#8, 1#8] four
     s.schedule = .command .frontEnd [7#8, 1#8, 1#8] :: [] ∧ decodeCommand [7#8, 1#8, 1#8] = .ok (.send [true]) ∧
     ∃ t, step s = .next t) := ⟨⟨rfl, rfl, _, rfl⟩, ⟨rfl, rfl, _, rfl⟩⟩

end Sys2Proof.Tests
end

section
/-! What every instruction and every step keeps: the build, the configuration of a constructed strip, the bits queued, the bits of ESR, and
the invariant of the machine (R14, R81, R22, R25, R21). Each is read off from `exec_did` and `step_did`. -/
namespace Sys2Proof.Machine

/-! ## Right after reset, and the flags -/

/-- Settles O1: each is a field of the reset state, or a flag of one. -/
theorem resetLeavesTheStatedValues : Obligations.ResetLeavesTheStatedValues :=
  ⟨rfl, rfl, rfl, rfl, rfl, rfl, rfl, rfl⟩

theorem dout_of_shift {s : State} {v : Bool} {tl : List Bool} (hp : s.seq.phase = .shift) (hq : s.seq.txq = v :: tl) :
    s.dout = decide (s.seq.tck < highLen s.build v) := by
  simp [State.dout, Sequencer.dout, hp, hq]

theorem dout_of_ne_shift {s : State} (hp : s.seq.phase ≠ .shift) : s.dout = false := by
  unfold State.dout Sequencer.dout
  split <;> simp_all

theorem busy_iff {s : State} : s.busy = true ↔ s.seq.phase ≠ .idle := by
  simp [State.busy, Sequencer.busy]

/-- Settles O29: the head bit's high length is R110's. -/
theorem lineLevelAndBusy : Obligations.LineLevelAndBusy := by
  intro s
  refine ⟨fun tl hp hq => ?_, fun tl hp hq => ?_, dout_of_ne_shift, busy_iff⟩
  · rw [dout_of_shift hp hq, decide_eq_true_iff]; rfl
  · rw [dout_of_shift hp hq, decide_eq_true_iff]; rfl

/-- Settles O46: in IDLE, with no strip; there is no low-hold to record. -/
theorem resetMeetsTheInvariant : Obligations.ResetMeetsTheInvariant :=
  ⟨⟨by decide, idle_inv _, trivial⟩, fun hp => absurd hp (by decide)⟩

/-! ## The build -/

theorem Did.build_eq {i : Instr} {s t : State} (h : Did i s t) : t.build = s.build := by
  cases h <;> rename_i ht <;> rw [ht]

theorem step_build {s t : State} (h : step s = .next t) : t.build = s.build := by
  cases step_did h with
  | command i rest who bytes hs hd hx => exact (exec_did hx).build_eq
  | wire i rest u hs hw hx => exact (exec_did hx).build_eq
  | ticked rest hr ht => rw [ht, tick_build]
  | spent rest available hr ht => rw [ht]
  | reset rest hs ht => rw [ht, resetBlock_build]

/-- Settles O47: no instruction and no move writes the build, the reset included. -/
theorem buildNeverChanges : Obligations.BuildNeverChanges := fun _ _ => step_build

theorem not_noReset {s : State} {rest : List Move} (hs : s.schedule = .reset :: rest) : ¬ s.noReset :=
  fun hn => hn (by rw [hs]; rfl)

/-! ## The configuration of a constructed strip -/

/-- The strip is there, with N, OUT_PIN and BRT as in `p` (R81). -/
def Life.ConfiguredAs (p : Strip) (l : Life) : Prop :=
  ∃ q : Strip, l = .ready q ∧ q.ledCount = p.ledCount ∧ q.outputPin = p.outputPin ∧ q.brightness = p.brightness

theorem configuredAs_self (p : Strip) : Life.ConfiguredAs p (.ready p) := ⟨p, rfl, rfl, rfl, rfl⟩

/-- No instruction changes the configuration of a constructed strip. -/
theorem Did.configuredAs {i : Instr} {s t : State} {p : Strip} (h : Did i s t) (hl : s.life = .ready p) :
    Life.ConfiguredAs p t.life := by
  have same : Life.ConfiguredAs p s.life := hl ▸ configuredAs_self p
  cases h with
  | raised e hf ht => rw [ht]; exact same
  | responded c hf ht => rw [ht]; exact same
  | constructed q hf hu hn hb hp ht => rw [hl] at hu; cases hu
  | wrote q k c hf hr hk ht =>
    obtain rfl : p = q := Life.ready.inj (hl.symm.trans hr)
    rw [ht]; exact ⟨_, rfl, rfl, rfl, rfl⟩
  | filled q c hf hr ht =>
    obtain rfl : p = q := Life.ready.inj (hl.symm.trans hr)
    rw [ht]; exact ⟨_, rfl, rfl, rfl, rfl⟩
  | sent bits hi hp ht => rw [ht]; exact same
  | emitted bits rest hf hb hp hq ht => rw [ht]; exact same
  | held hi hp ht => rw [ht]; exact same

/-- No step but a reset changes the configuration of a constructed strip (R81). -/
theorem step_configuredAs {s t : State} {p : Strip} (hn : s.noReset) (hl : s.life = .ready p) (h : step s = .next t) :
    Life.ConfiguredAs p t.life := by
  cases step_did h with
  | command i rest who bytes hs hd hx => exact (exec_did hx).configuredAs hl
  | wire i rest u hs hw hx => exact (exec_did hx).configuredAs hl
  | ticked rest hr ht => rw [ht, tick_life]; exact hl ▸ configuredAs_self p
  | spent rest available hr ht => rw [ht]; exact hl ▸ configuredAs_self p
  | reset rest hs ht => exact absurd hn (not_noReset hs)

/-! ## ESR -/

/-- ESR is as before, or an error was answered and its bit was set (R25). -/
def EsrGrows (s t : State) : Prop := t.esr = s.esr ∨ ∃ e, t.rsp = some (.error e) ∧ t.esr = s.esr ||| e.esrBit

theorem Did.esrGrows {i : Instr} {s t : State} (h : Did i s t) : EsrGrows s t := by
  cases h with
  | raised e hf ht => exact .inr ⟨e, by rw [ht], by rw [ht]⟩
  | responded c hf ht => exact .inl (by rw [ht])
  | constructed p hf hl hn hb hp ht => exact .inl (by rw [ht])
  | wrote p k c hf hl hk ht => exact .inl (by rw [ht])
  | filled p c hf hl ht => exact .inl (by rw [ht])
  | sent bits hi hp ht => exact .inl (by rw [ht])
  | emitted bits rest hf hb hp hq ht => exact .inl (by rw [ht])
  | held hi hp ht => exact .inl (by rw [ht])

theorem step_esrGrows {s t : State} (hn : s.noReset) (h : step s = .next t) : EsrGrows s t := by
  cases step_did h with
  | command i rest who bytes hs hd hx => exact (exec_did hx).esrGrows
  | wire i rest u hs hw hx => exact (exec_did hx).esrGrows
  | ticked rest hr ht => exact .inl (by rw [ht, tick_esr])
  | spent rest available hr ht => exact .inl (by rw [ht])
  | reset rest hs ht => exact absurd hn (not_noReset hs)

/-- A register that grows keeps every bit that is set. -/
theorem EsrGrows.keeps {s t : State} (h : EsrGrows s t) : s.esr &&& t.esr = s.esr := by
  obtain h | ⟨e, -, h⟩ := h
  · rw [h, BitVec.and_self]
  · rw [h]; ext k hk; simp +contextual

/-- Settles O44: the bits set are those of the errors answered, so none is cleared. -/
theorem esrBitsAreSticky : Obligations.EsrBitsAreSticky := fun _ _ hn h =>
  ⟨(step_esrGrows hn h).keeps, step_esrGrows hn h⟩

/-! ## The bits queued -/

/-- A tick takes from TXQ only where a symbol ends; elsewhere TXQ is the same. -/
theorem tick_txq_suffix (b : Build) (q : Sequencer) : (q.tick b).txq <:+ q.txq := by
  obtain ⟨-, e⟩ | ⟨-, -, e⟩ | ⟨-, -, -, e⟩ | ⟨-, -, -, e⟩ | ⟨-, -, e⟩ | ⟨-, -, e⟩ :=
    sequencer_tick_cases b q <;> rw [e]
  · exact List.nil_suffix
  · exact List.tail_suffix _

/-- In SHIFT an instruction leaves TXQ alone, or runs the symbols of its first bits. -/
theorem Did.txq_suffix {i : Instr} {s t : State} (h : Did i s t) (hp : s.seq.phase = .shift) : t.seq.txq <:+ s.seq.txq := by
  cases h with
  | raised e hf ht => rw [ht]
  | responded c hf ht => rw [ht]
  | constructed p hf hl hn hb hp ht => rw [ht]
  | wrote p k c hf hl hk ht => rw [ht]
  | filled p c hf hl ht => rw [ht]
  | sent bits hi hidle ht => rw [hp] at hidle; cases hidle
  | emitted bits rest hf hb hshift hq ht => rw [ht, hq, load_txq]; exact List.suffix_append bits rest
  | held hi hlatch ht => rw [hp] at hlatch; cases hlatch

theorem step_txq_suffix {s t : State} (hn : s.noReset) (hp : s.seq.phase = .shift) (h : step s = .next t) :
    t.seq.txq <:+ s.seq.txq := by
  cases step_did h with
  | command i rest who bytes hs hd hx => exact (exec_did hx).txq_suffix hp
  | wire i rest u hs hw hx => exact (exec_did hx).txq_suffix hp
  | ticked rest hr ht => rw [ht, tick_seq]; exact tick_txq_suffix _ _
  | spent rest available hr ht => rw [ht]
  | reset rest hs ht => exact absurd hn (not_noReset hs)

/-- Settles O49: what a step leaves queued is a suffix, so what it sent is the bits before that. -/
theorem queuedBitsAreNeverChanged : Obligations.QueuedBitsAreNeverChanged := by
  intro s t hn hp h
  obtain ⟨sent, e⟩ := step_txq_suffix hn hp h
  exact ⟨sent, e.symm⟩

/-! ## The invariant of the machine -/

theorem inv_shift {b : Build} {q : Sequencer} (h : q.Inv b) (hp : q.phase = .shift) :
    q.txq ≠ [] ∧ q.tck < b.tb ∧ q.hold = 0 := by
  obtain ⟨hi, -⟩ | ⟨-, hrest⟩ | ⟨hl, -⟩ := h
  · rw [hp] at hi; cases hi
  · exact hrest
  · rw [hp] at hl; cases hl

theorem inv_latch {b : Build} {q : Sequencer} (h : q.Inv b) (hp : q.phase = .latch) :
    q.txq = [] ∧ q.tck = 0 ∧ 1 ≤ q.hold ∧ q.hold ≤ b.resetTicks := by
  obtain ⟨hi, -⟩ | ⟨hs, -⟩ | ⟨-, hrest⟩ := h
  · rw [hp] at hi; cases hi
  · rw [hp] at hs; cases hs
  · exact hrest

/-- A tick keeps R21: each phase's own count moves within its bounds, and a phase ends where its count does. -/
theorem tick_inv {b : Build} {q : Sequencer} (hb : b.legal = true) (h : q.Inv b) : (q.tick b).Inv b := by
  obtain ⟨-, -, -, hreset, htb⟩ := build_legal hb
  obtain ⟨-, e⟩ | ⟨hp, hlt, e⟩ | ⟨-, -, -, e⟩ | ⟨hp, -, htail, e⟩ | ⟨hp, hgt, e⟩ | ⟨hp, -, e⟩ :=
    sequencer_tick_cases b q <;> rw [e]
  · exact h
  · obtain ⟨hq, -, hh⟩ := inv_shift h hp
    exact .inr (.inl ⟨hp, hq, Nat.add_lt_of_lt_sub hlt, hh⟩)
  · exact load_inv hreset (by omega) []
  · obtain ⟨-, -, hh⟩ := inv_shift h hp
    exact .inr (.inl ⟨hp, htail, show 0 < b.tb by omega, hh⟩)
  · obtain ⟨hq, ht, -, hle⟩ := inv_latch h hp
    exact .inr (.inr ⟨hp, hq, ht, Nat.le_sub_one_of_lt hgt, (Nat.sub_le _ _).trans hle⟩)
  · obtain ⟨hq, ht, -, -⟩ := inv_latch h hp
    exact .inl ⟨rfl, hq, ht, rfl⟩

theorem strip_write_inv {b : Build} {p : Strip} {k : Nat} (c : Color) (h : p.Inv b) (hk : k < p.ledCount.toNat) :
    (p.write b k c).Inv b := by
  obtain ⟨hn, hb, hm⟩ := h
  exact ⟨hn, hb, memory_wf_write c hm hk⟩

theorem strip_fillWith_inv {b : Build} {p : Strip} (c : Color) (h : p.Inv b) : (p.fillWith b c).Inv b := by
  obtain ⟨hn, hb, -⟩ := h
  exact ⟨hn, hb, memory_wf_fill c⟩

theorem Did.inv {i : Instr} {s t : State} (h : Did i s t) (hs : s.Inv) : t.Inv := by
  obtain ⟨hlegal, hseq, hlife⟩ := hs
  obtain ⟨-, -, -, hreset, htb⟩ := build_legal hlegal
  have loaded : ∀ bits, Sequencer.Inv s.build (Sequencer.load s.build bits) := load_inv hreset (by omega)
  cases h with
  | raised e hf ht => rw [ht]; exact ⟨hlegal, hseq, hlife⟩
  | responded c hf ht => rw [ht]; exact ⟨hlegal, hseq, hlife⟩
  | constructed p hf hl hn hb hp ht =>
    rw [ht]; exact ⟨hlegal, hseq, hn, hb, hp ▸ memory_wf_nil⟩
  | wrote p k c hf hl hk ht =>
    rw [hl] at hlife; rw [ht]; exact ⟨hlegal, hseq, strip_write_inv c hlife hk⟩
  | filled p c hf hl ht =>
    rw [hl] at hlife; rw [ht]; exact ⟨hlegal, hseq, strip_fillWith_inv c hlife⟩
  | sent bits hi hp ht => rw [ht]; exact ⟨hlegal, loaded bits, hlife⟩
  | emitted bits rest hf hb hp hq ht => rw [ht]; exact ⟨hlegal, loaded rest, hlife⟩
  | held hi hp ht => rw [ht]; exact ⟨hlegal, idle_inv _, hlife⟩

theorem step_inv {s t : State} (hs : s.Inv) (h : step s = .next t) : t.Inv := by
  cases step_did h with
  | command i rest who bytes hsch hd hx => exact (exec_did hx).inv hs
  | wire i rest u hsch hw hx => exact (exec_did hx).inv hs
  | ticked rest hr ht =>
    obtain ⟨hlegal, hseq, hlife⟩ := hs
    rw [ht]; exact ⟨hlegal, tick_inv hlegal hseq, hlife⟩
  | spent rest available hr ht => rw [ht]; exact hs
  | reset rest hsch ht => rw [ht]; exact ⟨hs.1, idle_inv _, trivial⟩

/-- Settles O45, by what each instruction and each move can do. -/
theorem stepKeepsTheInvariant : Obligations.StepKeepsTheInvariant := fun _ _ => step_inv

end Sys2Proof.Machine
end

section
/-! The PixelBuffer's canonical form (R16, R18), and where in a frame a bit stands (R20, R43, R97). -/
namespace Sys2Proof.Machine

/-! ## The canonical form -/

theorem memory_wf_iff {init : Nat → Color} {n : Nat} {m : Memory} :
    Memory.wf init n m = true ↔ (m.Pairwise fun p q => p.1 < q.1) ∧ ∀ p ∈ m, p.1 < n ∧ p.2 ≠ init p.1 := by
  simp [Memory.wf]

/-- A canonical memory lists exactly the entries below n that read otherwise than initially. -/
theorem memory_mem_iff {init : Nat → Color} {n : Nat} {m : Memory} (hm : Memory.wf init n m = true) (i : Nat) (c : Color) :
    (i, c) ∈ m ↔ i < n ∧ c ≠ init i ∧ Memory.read init m i = c := by
  constructor
  · intro h
    obtain ⟨hlt, hne⟩ := (memory_wf_iff.1 hm).2 _ h
    exact ⟨hlt, hne, memory_read_eq_of_mem hm h⟩
  · rintro ⟨-, hne, hread⟩
    by_contra hnot
    have unlisted : ∀ d, (i, d) ∉ m := fun d hd => by
      obtain rfl : d = c := (memory_read_eq_of_mem hm hd).symm.trans hread
      exact hnot hd
    exact hne (hread.symm.trans (memory_read_of_notMem unlisted))

/-- Memories with strictly rising indices that list the same entries are the same list. -/
theorem memory_eq_of_mem_iff {m m' : Memory} (hs : m.Pairwise fun p q => p.1 < q.1) (hs' : m'.Pairwise fun p q => p.1 < q.1)
    (h : ∀ p, p ∈ m ↔ p ∈ m') : m = m' := by
  have ne_of_lt : ∀ {p q : Nat × Color}, p.1 < q.1 → p ≠ q := fun hlt e => absurd hlt (by rw [e]; omega)
  have perm : m.Perm m' := (List.perm_ext_iff_of_nodup (hs.imp ne_of_lt) (hs'.imp ne_of_lt)).2 h
  exact perm.eq_of_pairwise (fun p q _ _ hpq hqp => absurd hpq (by omega)) hs hs'

/-- Settles O15: what a canonical memory lists is determined by what it reads, and its order by its indices. -/
theorem equalReadsAreEqualBuffers : Obligations.EqualReadsAreEqualBuffers := by
  intro init n m m' hm hm' hread
  refine memory_eq_of_mem_iff (memory_wf_iff.1 hm).1 (memory_wf_iff.1 hm').1 ?_
  rintro ⟨i, c⟩
  rw [memory_mem_iff hm, memory_mem_iff hm']
  exact and_congr_right fun hi => by rw [hread i hi]

/-! ## The bits of a frame -/

@[simp] theorem frameBits_cons (f : ScaleReading) (c : Color) (buffer : List Color) (b : F32) :
    frameBits f (c :: buffer) b = bits24 (word f c b) ++ frameBits f buffer b := by
  simp [frameBits]

/-- A frame has 24 bits per Color (R43). -/
@[simp] theorem frameBits_length (f : ScaleReading) (buffer : List Color) (b : F32) :
    (frameBits f buffer b).length = 24 * buffer.length := by
  induction buffer with
  | nil => rfl
  | cons c buffer ih => rw [frameBits_cons, List.length_append, bits24_length, ih, List.length_cons]; omega

/-- Bit p of a frame is bit 23 - (p mod 24) of the word of entry p div 24 (R43, R97). -/
theorem frameBits_getElem? (f : ScaleReading) {buffer : List Color} (b : F32) {p : Nat} {c : Color}
    (h : buffer[p / 24]? = some c) :
    (frameBits f buffer b)[p]? = some ((word f c b).getLsbD (23 - p % 24)) := by
  induction buffer generalizing p with
  | nil => simp at h
  | cons d buffer ih =>
    rw [frameBits_cons]
    by_cases hp : p < 24
    · rw [Nat.div_eq_of_lt hp] at h
      obtain rfl : d = c := by simpa using h
      rw [List.getElem?_append_left (by simpa using hp), bits24_getElem? hp, Nat.mod_eq_of_lt hp]
    · have hdiv : p / 24 = (p - 24) / 24 + 1 := by omega
      have hmod : p % 24 = (p - 24) % 24 := by omega
      rw [hdiv, List.getElem?_cons_succ] at h
      rw [List.getElem?_append_right (by simpa using hp), bits24_length, hmod]
      exact ih h

/-- POS is the number of bits of the frame that are gone (R20). -/
theorem pos_eq_of_drop {bits : List Bool} {q : Sequencer} {p : Nat} (hp : p ≤ bits.length) (hq : q.txq = bits.drop p) :
    q.pos bits.length = p := by
  rw [Sequencer.pos, hq, List.length_drop]; omega

/-- Settles O32: the head of what is left from bit p on is bit p of the frame. -/
theorem positionViewsNameTheBitBeingSent : Obligations.PositionViewsNameTheBitBeingSent := by
  intro f buffer b q p hp hq
  have hpos : q.pos (24 * buffer.length) = p := by
    rw [← frameBits_length f buffer b] at hp ⊢
    exact pos_eq_of_drop hp.le hq
  obtain ⟨c, hc⟩ : ∃ c, buffer[p / 24]? = some c := ⟨_, List.getElem?_eq_getElem (by omega)⟩
  refine ⟨hpos, c, ?_, ?_⟩
  · rw [Sequencer.pix, hpos, hc]
  · rw [Sequencer.biti, hpos, hq, List.head?_drop, frameBits_getElem? f b hc]

end Sys2Proof.Machine
end

section
/-! What no step reads: CFG.OUT_PIN (R12) and the record of the line (log 13). Both obligations follow from one fact: a step commutes with
changing the two. -/
namespace Sys2Proof.Machine

/-- Another pin in a strip. -/
def Strip.mapPin (g : PinId → PinId) (p : Strip) : Strip := { p with outputPin := g p.outputPin }

/-- Another pin in the strip, if there is one. -/
def Life.mapPin (g : PinId → PinId) : Life → Life
  | .unconfigured => .unconfigured
  | .ready p => .ready (p.mapPin g)

/-- The state with what no step reads changed: the output pin, and what was recorded before. -/
def State.withUnread (g : PinId → PinId) (past : List Bool) (s : State) : State :=
  { s with life := s.life.mapPin g, trace := past ++ s.trace }

/-- The answer with its next state, if there is one, changed. -/
def mapNext (f : State → State) : Result → Result
  | .next t => .next (f t)
  | .fault r => .fault r
  | .refused r => .refused r


@[simp] theorem mapPin_ledCount (g : PinId → PinId) (p : Strip) : (p.mapPin g).ledCount = p.ledCount := rfl
@[simp] theorem life_mapPin_id (l : Life) : l.mapPin id = l := by cases l <;> rfl

variable {g : PinId → PinId} {past : List Bool} {s : State}

@[simp] theorem withUnread_build : (s.withUnread g past).build = s.build := rfl
@[simp] theorem withUnread_life : (s.withUnread g past).life = s.life.mapPin g := rfl
@[simp] theorem withUnread_seq : (s.withUnread g past).seq = s.seq := rfl
@[simp] theorem withUnread_periphAvail : (s.withUnread g past).periphAvail = s.periphAvail := rfl
@[simp] theorem withUnread_issuer : (s.withUnread g past).issuer = s.issuer := rfl
@[simp] theorem withUnread_trace : (s.withUnread g past).trace = past ++ s.trace := rfl
@[simp] theorem withUnread_busy : (s.withUnread g past).busy = s.busy := rfl

/-! ## The shared operations -/

theorem fromHost_withUnread {run run' : Result} (h : run' = mapNext (State.withUnread g past) run) :
    fromHost (s.withUnread g past) run' = mapNext (State.withUnread g past) (fromHost s run) := by
  unfold fromHost
  rw [withUnread_issuer]
  cases s.issuer
  · exact h
  · rfl
  · rfl

theorem fromFrontEnd_withUnread {run run' : Result} (h : run' = mapNext (State.withUnread g past) run) :
    fromFrontEnd (s.withUnread g past) run' = mapNext (State.withUnread g past) (fromFrontEnd s run) := by
  unfold fromFrontEnd
  rw [withUnread_issuer]
  cases s.issuer
  · rfl
  · rfl
  · exact h

theorem whenReady_withUnread {run run' : Strip → Result}
    (h : ∀ p, run' (p.mapPin g) = mapNext (State.withUnread g past) (run p)) :
    whenReady (s.withUnread g past) run' = mapNext (State.withUnread g past) (whenReady s run) := by
  unfold whenReady
  rw [withUnread_life]
  cases s.life with
  | unconfigured => rfl
  | ready p => exact h p

theorem whenUnconfigured_withUnread {run run' : Result}
    (h : s.life = .unconfigured → run' = mapNext (State.withUnread g past) run) :
    whenUnconfigured (s.withUnread g past) run' = mapNext (State.withUnread g past) (whenUnconfigured s run) := by
  unfold whenUnconfigured
  rw [withUnread_life]
  cases hl : s.life with
  | unconfigured => exact h hl
  | ready p => rfl

theorem sendBits_withUnread (bits : List Bool) :
    sendBits bits (s.withUnread g past) = mapNext (State.withUnread g past) (sendBits bits s) := by
  unfold sendBits
  rw [withUnread_seq, withUnread_periphAvail]
  split_ifs <;> rfl

theorem encodeAndSend_withUnread (buffer : List Color) (brt : F32) (p : Strip) :
    encodeAndSend buffer brt (p.mapPin g) (s.withUnread g past) =
      mapNext (State.withUnread g past) (encodeAndSend buffer brt p s) := by
  unfold encodeAndSend
  rw [mapPin_ledCount, withUnread_build]
  split_ifs
  · rfl
  · exact sendBits_withUnread _
  · rfl

theorem emitBits_withUnread (bits : List Bool) :
    emitBits bits (s.withUnread g past) = mapNext (State.withUnread g past) (emitBits bits s) := by
  simp only [emitBits, withUnread_seq, withUnread_build, withUnread_trace, List.append_assoc]
  split_ifs <;> rfl

theorem emitLowHold_withUnread :
    emitLowHold (s.withUnread g past) = mapNext (State.withUnread g past) (emitLowHold s) := by
  simp only [emitLowHold, withUnread_seq, withUnread_trace, List.append_assoc]
  split_ifs <;> rfl

theorem tick_withUnread : tick (s.withUnread g past) = (tick s).withUnread g past := by
  simp only [tick, withUnread_trace, List.append_assoc]
  rfl

/-! ## Instructions and steps -/

/-- An instruction neither reads the pin nor the record. The one that writes the pin is CONFIGURE, before construction. -/
theorem exec_withUnread (i : Instr) (hg : s.life = .unconfigured → g = id) :
    exec i (s.withUnread g past) = mapNext (State.withUnread g past) (exec i s) := by
  cases i with
  | configure n pin brt =>
    refine fromHost_withUnread (whenUnconfigured_withUnread fun hl => ?_)
    obtain rfl := hg hl
    rw [withUnread_build]
    split_ifs <;> rfl
  | set index color =>
    refine fromHost_withUnread (whenReady_withUnread fun p => ?_)
    simp only [mapPin_ledCount]
    cases indexInRange index p.ledCount <;> rfl
  | get index =>
    refine fromHost_withUnread (whenReady_withUnread fun p => ?_)
    simp only [mapPin_ledCount]
    cases indexInRange index p.ledCount <;> rfl
  | fill color => exact fromHost_withUnread (whenReady_withUnread fun p => rfl)
  | clear => exact fromHost_withUnread (whenReady_withUnread fun p => rfl)
  | flush => exact fromHost_withUnread (whenReady_withUnread fun p => encodeAndSend_withUnread _ _ p)
  | encode buffer brt => exact fromHost_withUnread (whenReady_withUnread fun p => encodeAndSend_withUnread buffer brt p)
  | send bits => exact fromFrontEnd_withUnread (whenReady_withUnread fun p => sendBits_withUnread bits)
  | word24 w => exact emitBits_withUnread (bits24 w)
  | sym0 => exact emitBits_withUnread [false]
  | sym1 => exact emitBits_withUnread [true]
  | reset => exact emitLowHold_withUnread

/-- A step commutes with changing what no step reads. -/
theorem step_withUnread (hg : s.life = .unconfigured → g = id) :
    step (s.withUnread g past) = mapNext (State.withUnread g past) (step s) := by
  cases hs : s.schedule with
  | nil => rw [step_silent hs, step_silent (s := s.withUnread g past) hs, tick_withUnread]; rfl
  | cons m rest =>
    cases m with
    | command who bytes =>
      cases hd : decodeCommand bytes with
      | ok i =>
        rw [step_command_ok hs hd, step_command_ok (s := s.withUnread g past) hs hd]
        exact exec_withUnread (s := { s with schedule := rest, issuer := who }) i hg
      | error e => rw [step_command_error hs hd, step_command_error (s := s.withUnread g past) hs hd]; rfl
    | wait n =>
      cases n with
      | zero => rw [step_wait_zero hs, step_wait_zero (s := s.withUnread g past) hs]; rfl
      | succ n =>
        rw [step_wait_succ hs, step_wait_succ (s := s.withUnread g past) hs]
        exact congrArg _ (tick_withUnread (s := { s with schedule := .wait n :: rest }))
    | waitIdle =>
      rw [step_waitIdle hs, step_waitIdle (s := s.withUnread g past) hs, tick_withUnread, withUnread_busy]
      split <;> rfl
    | wire u =>
      cases hw : wireInstr u s.seq with
      | some i =>
        rw [step_wire_some hs hw, step_wire_some (s := s.withUnread g past) hs hw]
        exact exec_withUnread (s := { s with schedule := rest }) i hg
      | none =>
        rw [step_wire_none hs hw, step_wire_none (s := s.withUnread g past) hs hw]
        exact congrArg _ (tick_withUnread (s := { s with schedule := rest }))
    | periphAvail a => rw [step_periphAvail hs, step_periphAvail (s := s.withUnread g past) hs]; rfl
    | reset => rw [step_reset hs, step_reset (s := s.withUnread g past) hs]; rfl

/-- A step with any record before it is the step without one, with the record before what it adds. -/
theorem step_record (s : State) (record : List Bool) :
    step { s with trace := record } = mapNext (State.withUnread id record) (step { s with trace := [] }) := by
  rw [← step_withUnread fun _ => rfl]
  simp [State.withUnread]

/-- Settles O52: with the record empty the step answers the levels that every record grows by. -/
theorem theRecordIsNeverRead : Obligations.TheRecordIsNeverRead := by
  intro s record
  have own : step s = mapNext (State.withUnread id s.trace) (step { s with trace := [] }) := step_record s s.trace
  rw [step_record s record, own]
  cases step { s with trace := [] } with
  | next t₀ =>
    refine ⟨fun t ht => ⟨t₀.trace, ?_⟩, fun r hr => by cases hr⟩
    obtain rfl := Host.Outcome.next.inj ht
    exact ⟨rfl, rfl⟩
  | fault r => exact nomatch r
  | refused r => exact ⟨fun t ht => (by cases ht), fun r' hr => by rw [← hr]; rfl⟩

/-- Settles O53: the other pin is a change of what no step reads, and the strip stays there. -/
theorem theOutputPinIsNeverRead : Obligations.TheOutputPinIsNeverRead := by
  intro s t p pin hn hl h
  obtain ⟨q, hq, -⟩ := step_configuredAs hn hl h
  have repinned : ∀ {u : State} {r : Strip}, u.life = .ready r →
      u.withUnread (fun _ => pin) [] = { u with life := .ready { r with outputPin := pin } } := fun hu => by
    simp [State.withUnread, hu, Life.mapPin, Strip.mapPin]
  refine ⟨q, hq, ?_⟩
  rw [← repinned hl, ← repinned hq, step_withUnread (by simp [hl]), h]
  rfl

end Sys2Proof.Machine
end

section
/-! What a step runs: the command on the port (R47), or what stands at the sequencer's position (R56, log 12); who may issue a command
(R52, R70); the symbols of a word on the line (R40, R64); and the bits of a frame (R43). -/
namespace Sys2Proof.Machine

/-- Settles O25: the length of a frame, and the bit of the word of entry p div 24. -/
theorem frameBitPosition : Obligations.FrameBitPosition := fun f buffer b =>
  ⟨frameBits_length f buffer b, fun _ _ h => frameBits_getElem? f b h⟩

/-! ## A word on the line -/

/-- The load as one sequencer tuple per case: the low-hold where no bit is left, else SHIFT (R111, R114). -/
theorem load_eq_ite (b : Build) (bits : List Bool) :
    Sequencer.load b bits = if bits = [] then { phase := .latch, txq := [], tck := 0, hold := b.resetTicks }
      else { phase := .shift, txq := bits, tck := 0, hold := 0 } := by
  cases bits <;> simp

/-- The symbols of a word, bit 23 first (R40, R64). -/
theorem symbols_bits24 (b : Build) (w : WireWord) :
    symbols b (bits24 w) = (List.range 24).flatMap fun k => sym b (w.getLsbD (23 - k)) := List.flatMap_map ..

/-- Settles O36: WORD24 emits the word's bits, which stand first in TXQ. -/
theorem wordOnTheLine : Obligations.WordOnTheLine := by
  intro s w tl hp hq
  have hword : s.seq.txq = bits24 w ++ tl := hq
  have hrun : exec (.word24 w) s = emitBits (bits24 w) s := rfl
  rw [hrun, emitBits_of_prefix hp hword, load_eq_ite, symbols_bits24]

/-! ## Who issues a command -/

/-- Every command but SEND runs under `fromHost` (R52). -/
theorem exec_eq_fromHost {i : Instr} (hf : i.format = .cmd) (hns : ∀ bits, i ≠ .send bits) (s : State) :
    ∃ run, exec i s = fromHost s run := by
  cases i with
  | configure n pin brt => exact ⟨_, rfl⟩
  | set index color => exact ⟨_, rfl⟩
  | get index => exact ⟨_, rfl⟩
  | fill color => exact ⟨_, rfl⟩
  | clear => exact ⟨_, rfl⟩
  | flush => exact ⟨_, rfl⟩
  | encode buffer brt => exact ⟨_, rfl⟩
  | send bits => exact absurd rfl (hns bits)
  | word24 w => cases hf
  | sym0 => cases hf
  | sym1 => cases hf
  | reset => cases hf

/-- A command that answers a next state was the host's and no SEND, or the front end's SEND (R52, R70, R111). -/
theorem exec_command_issuer {i : Instr} {s t : State} (hf : i.format = .cmd) (h : exec i s = .next t) :
    (s.issuer = .host ∧ ∀ bits, i ≠ .send bits) ∨ (s.issuer = .frontEnd ∧ ∃ bits, i = .send bits) := by
  by_cases hsend : ∃ bits, i = .send bits
  · obtain ⟨bits, rfl⟩ := hsend
    exact .inr ⟨(fromFrontEnd_next h).1, bits, rfl⟩
  · have hns : ∀ bits, i ≠ .send bits := not_exists.1 hsend
    obtain ⟨run, hrun⟩ := exec_eq_fromHost hf hns s
    exact .inl ⟨(fromHost_next (hrun ▸ h)).1, hns⟩

/-- Settles O60: the step runs the command with its issuer on the port. -/
theorem commandsComeFromOneHost : Obligations.CommandsComeFromOneHost := by
  intro s t who bytes rest i hs hd h
  rw [step_command_ok hs hd] at h
  exact exec_command_issuer (decodeCommand_format hd) h

/-! ## What a step runs -/

/-- Settles O3: the equation of a step on a command that decodes. -/
theorem stepRunsTheCommandOnThePort : Obligations.StepRunsTheCommandOnThePort :=
  fun _ _ _ _ _ => step_command_ok

theorem patternAt_shift {q : Sequencer} {v : Bool} {tl : List Bool} (hp : q.phase = .shift) (hq : q.txq = v :: tl) :
    patternAt q = some (if v then .sym1 else .sym0) := by
  cases v <;> simp [patternAt, hp, hq]

theorem patternAt_latch {q : Sequencer} (hp : q.phase = .latch) : patternAt q = some .reset := by
  simp [patternAt, hp]

theorem patternAt_idle {q : Sequencer} (hp : q.phase = .idle) : patternAt q = none := by
  simp [patternAt, hp]

/-- Out of SHIFT there is no word: both units run the pattern at the position. -/
theorem wireInstr_of_ne_shift (u : WireUnit) {q : Sequencer} (hp : q.phase ≠ .shift) : wireInstr u q = patternAt q := by
  cases u with
  | pattern => rfl
  | word => simp [wireInstr, hp]

/-- The word whose 24 bits are queued first is the one that runs. -/
theorem wireInstr_word {q : Sequencer} {w : WireWord} {tl : List Bool} (hp : q.phase = .shift) (hq : q.txq = bits24 w ++ tl) :
    wireInstr .word q = some (.word24 w) := by
  have hhead : q.txq.take 24 = bits24 w := by rw [hq, List.take_left' (bits24_length w)]
  have hlen : 24 ≤ q.txq.length := by simp [hq]
  rw [wireInstr, if_pos ⟨hp, hlen⟩, hhead, wordOfBits_bits24]

/-- Settles O4: a wire move runs the instruction at the position, or a tick where there is none. -/
theorem stepRunsTheWirePatternAtThePosition : Obligations.StepRunsTheWirePatternAtThePosition := by
  intro s rest
  refine ⟨fun v tl hs hp hq => ?symbol, fun u hs hp => ?lowHold, fun w tl hs hp hq => ?word, fun u hs hp => ?idle⟩
  case symbol => exact step_wire_some hs (patternAt_shift hp hq)
  case lowHold => exact step_wire_some hs ((wireInstr_of_ne_shift u (by simp [hp])).trans (patternAt_latch hp))
  case word => exact step_wire_some hs (wireInstr_word hp hq)
  case idle => exact step_wire_none hs ((wireInstr_of_ne_shift u (by simp [hp])).trans (patternAt_idle hp))

end Sys2Proof.Machine
end

section
/-! Commands as bytes (R70, log 3): reading a command from the front of a byte stream is taking its one encoding off, per tag and then for
all commands. Both directions of decode and encode follow, with the symbols of the line told apart by their first level and their level at
T1 (R63). -/
namespace Sys2Proof.Machine

/-! ## Readers in sequence -/

/-- Two readers in sequence answer exactly where the first does and the second does on what is left. -/
theorem read_bind_eq_ok {α β : Type} {x : Except DecodeError (α × List Byte)}
    {f : α × List Byte → Except DecodeError β} {r : β} :
    (x >>= f) = .ok r ↔ ∃ a left, x = .ok (a, left) ∧ f (a, left) = .ok r := by
  cases x with
  | error e => exact ⟨fun h => (by cases h), fun ⟨_, _, h, _⟩ => (by cases h)⟩
  | ok p => exact ⟨fun h => ⟨p.1, p.2, rfl, h⟩, fun ⟨_, _, h, hf⟩ => by cases h; exact hf⟩

theorem read_pure_eq_ok {i j : Instr} {left rest : List Byte} :
    (pure (j, left) : Except DecodeError (Instr × List Byte)) = .ok (i, rest) ↔ i = j ∧ left = rest := by
  simp [pure, Except.pure, eq_comm]

/-! ## The operands of each command -/

variable {bs rest : List Byte} {i : Instr}

theorem readConfigure_iff {flags : Nat} : readConfigure flags bs = .ok (i, rest) ↔ ∃ n pin brt,
    i = .configure n pin brt ∧
    (n.isSome = flags.testBit 0 ∧ pin.isSome = flags.testBit 1 ∧ brt.isSome = flags.testBit 2) ∧
    bs = writeOption writeU32 n ++ writeOption writeNat pin ++ writeOption writeU32 brt ++ rest := by
  unfold readConfigure
  simp only [read_bind_eq_ok, read_pure_eq_ok, readOption_iff fun _ _ _ => readU32_iff, readOption_iff fun _ _ _ => readNat_iff]
  constructor
  · rintro ⟨n, _, ⟨hn, rfl⟩, pin, _, ⟨hpin, rfl⟩, brt, _, ⟨hbrt, rfl⟩, rfl, rfl⟩
    exact ⟨n, pin, brt, rfl, ⟨hn, hpin, hbrt⟩, by simp⟩
  · rintro ⟨n, pin, brt, rfl, ⟨hn, hpin, hbrt⟩, rfl⟩
    exact ⟨n, _, ⟨hn, by simp⟩, pin, _, ⟨hpin, rfl⟩, brt, _, ⟨hbrt, rfl⟩, rfl, rfl⟩

theorem readOperands_set_iff : readOperands 1 bs = .ok (i, rest) ↔ ∃ index color,
    i = .set index color ∧ bs = writeNat (natOfInt index) ++ writeColor color ++ rest := by
  simp only [readOperands, read_bind_eq_ok, read_pure_eq_ok, readInt_iff, readColor_iff]
  constructor
  · rintro ⟨index, _, rfl, color, _, rfl, rfl, rfl⟩; exact ⟨index, color, rfl, by simp⟩
  · rintro ⟨index, color, rfl, rfl⟩; exact ⟨index, _, by simp, color, _, rfl, rfl, rfl⟩

theorem readOperands_get_iff : readOperands 2 bs = .ok (i, rest) ↔ ∃ index,
    i = .get index ∧ bs = writeNat (natOfInt index) ++ rest := by
  simp only [readOperands, read_bind_eq_ok, read_pure_eq_ok, readInt_iff]
  constructor
  · rintro ⟨index, _, rfl, rfl, rfl⟩; exact ⟨index, rfl, rfl⟩
  · rintro ⟨index, rfl, rfl⟩; exact ⟨index, _, rfl, rfl, rfl⟩

theorem readOperands_fill_iff : readOperands 3 bs = .ok (i, rest) ↔ ∃ color,
    i = .fill color ∧ bs = writeColor color ++ rest := by
  simp only [readOperands, read_bind_eq_ok, read_pure_eq_ok, readColor_iff]
  constructor
  · rintro ⟨color, _, rfl, rfl, rfl⟩; exact ⟨color, rfl, rfl⟩
  · rintro ⟨color, rfl, rfl⟩; exact ⟨color, _, rfl, rfl, rfl⟩

theorem readOperands_clear_iff : readOperands 4 bs = .ok (i, rest) ↔ i = .clear ∧ bs = rest := read_pure_eq_ok

theorem readOperands_flush_iff : readOperands 5 bs = .ok (i, rest) ↔ i = .flush ∧ bs = rest := read_pure_eq_ok

theorem readOperands_encode_iff : readOperands 6 bs = .ok (i, rest) ↔ ∃ buffer brt,
    i = .encode buffer brt ∧ bs = writeNat buffer.length ++ buffer.flatMap writeColor ++ writeU32 brt ++ rest := by
  simp only [readOperands, read_bind_eq_ok, read_pure_eq_ok, readNat_iff, readColors_iff, readU32_iff]
  constructor
  · rintro ⟨_, _, rfl, buffer, _, ⟨rfl, rfl⟩, brt, _, rfl, rfl, rfl⟩; exact ⟨buffer, brt, rfl, by simp⟩
  · rintro ⟨buffer, brt, rfl, rfl⟩; exact ⟨_, _, by simp, buffer, _, ⟨rfl, rfl⟩, brt, _, rfl, rfl, rfl⟩

theorem readOperands_send_iff : readOperands 7 bs = .ok (i, rest) ↔ ∃ bits,
    i = .send bits ∧ bs = writeNat bits.length ++ bits.map writeBit ++ rest := by
  simp only [readOperands, read_bind_eq_ok, read_pure_eq_ok, readNat_iff, readBits_iff]
  constructor
  · rintro ⟨_, _, rfl, bits, _, ⟨rfl, rfl⟩, rfl, rfl⟩; exact ⟨bits, rfl, by simp⟩
  · rintro ⟨bits, rfl, rfl⟩; exact ⟨_, _, by simp, bits, _, ⟨rfl, rfl⟩, rfl, rfl⟩

/-! ## The header -/

/-- A header byte is its tag in bits 2:0 and its flags above (R70, log 3). -/
theorem header_eq_iff {header : Byte} {tag flags : Nat} (ht : tag < 8) (hf : flags < 32) :
    header = BitVec.ofNat 8 (8 * flags + tag) ↔ header.toNat % 8 = tag ∧ header.toNat / 8 = flags := by
  have hlt := header.isLt
  rw [← BitVec.toNat_inj, BitVec.toNat_ofNat]
  omega

/-- CONFIGURE's flags are its three presence bits. -/
theorem flags_eq_iff {flags : Nat} (hf : flags < 8) (n pin brt : Bool) :
    flags = n.toNat + 2 * pin.toNat + 4 * brt.toNat ↔
      n = flags.testBit 0 ∧ pin = flags.testBit 1 ∧ brt = flags.testBit 2 := by
  revert n pin brt
  interval_cases flags <;> decide

theorem header_eq_configureHeader_iff {header : Byte} {n : Option U32} {pin : Option PinId} {brt : Option F32} :
    header = configureHeader n pin brt ↔ header.toNat % 8 = 0 ∧ header.toNat / 8 < 8 ∧
      (n.isSome = (header.toNat / 8).testBit 0 ∧ pin.isSome = (header.toNat / 8).testBit 1 ∧
        brt.isSome = (header.toNat / 8).testBit 2) := by
  have hsum : n.isSome.toNat + 2 * pin.isSome.toNat + 4 * brt.isSome.toNat < 8 := by
    have := n.isSome.toNat_le; have := pin.isSome.toNat_le; have := brt.isSome.toNat_le; omega
  have hhead : configureHeader n pin brt =
      BitVec.ofNat 8 (8 * (n.isSome.toNat + 2 * pin.isSome.toNat + 4 * brt.isSome.toNat) + 0) := by
    rw [configureHeader]; congr 1; omega
  rw [hhead, header_eq_iff (by omega) (by omega)]
  constructor
  · rintro ⟨ht, hf⟩
    have hlt : header.toNat / 8 < 8 := by omega
    exact ⟨ht, hlt, (flags_eq_iff hlt _ _ _).1 hf⟩
  · rintro ⟨ht, hlt, hf⟩
    exact ⟨ht, (flags_eq_iff hlt _ _ _).2 hf⟩

/-- A byte stream that begins with CONFIGURE's tag is read as its flags say. -/
theorem readCommand_configure {header : Byte} (ht : header.toNat % 8 = 0) (hf : header.toNat / 8 < 8) (bs : List Byte) :
    readCommand (header :: bs) = readConfigure (header.toNat / 8) bs := by
  simp [readCommand, ht, hf]

/-- A byte stream that begins with another tag is read as that tag's operands. -/
theorem readCommand_operands (tag : Nat) (bs : List Byte) (ht : 0 < tag := by decide) (ht' : tag < 8 := by decide) :
    readCommand (BitVec.ofNat 8 tag :: bs) = readOperands tag bs := by
  obtain ⟨hmod, hdiv⟩ := (header_eq_iff (header := BitVec.ofNat 8 tag) ht' (by omega : 0 < 32)).1 (by simp)
  rw [readCommand, hmod, hdiv, if_neg ht.ne', if_pos rfl]

/-- What a read command's header was: CONFIGURE's, or a bare tag. -/
theorem readCommand_header {header : Byte} (h : readCommand (header :: bs) = .ok (i, rest)) :
    (header.toNat % 8 = 0 ∧ header.toNat / 8 < 8) ∨ ∃ tag, 0 < tag ∧ tag < 8 ∧ header = BitVec.ofNat 8 tag := by
  rw [readCommand] at h
  by_cases ht : header.toNat % 8 = 0
  · rw [if_pos ht] at h
    split_ifs at h with hf
    exact .inl ⟨ht, hf⟩
  · rw [if_neg ht] at h
    split_ifs at h with hf
    refine .inr ⟨header.toNat % 8, by omega, by omega, ?_⟩
    have := (header_eq_iff (header := header) (tag := header.toNat % 8) (flags := 0) (by omega) (by omega)).2 ⟨rfl, hf⟩
    simpa using this

/-! ## A command and its bytes -/

/-- Reading the bytes of a command gives it, and leaves what follows. -/
theorem readCommand_encodeCommand (hi : i.format = .cmd) (rest : List Byte) :
    readCommand (encodeCommand i ++ rest) = .ok (i, rest) := by
  cases i with
  | configure n pin brt =>
    obtain ⟨ht, hlt, hf⟩ := header_eq_configureHeader_iff.1 (rfl : configureHeader n pin brt = _)
    exact (readCommand_configure ht hlt _).trans (readConfigure_iff.2 ⟨n, pin, brt, rfl, hf, rfl⟩)
  | set index color =>
    exact (readCommand_operands 1 _).trans (readOperands_set_iff.2 ⟨index, color, rfl, rfl⟩)
  | get index =>
    exact (readCommand_operands 2 _).trans (readOperands_get_iff.2 ⟨index, rfl, rfl⟩)
  | fill color =>
    exact (readCommand_operands 3 _).trans (readOperands_fill_iff.2 ⟨color, rfl, rfl⟩)
  | clear => exact (readCommand_operands 4 _).trans (readOperands_clear_iff.2 ⟨rfl, rfl⟩)
  | flush => exact (readCommand_operands 5 _).trans (readOperands_flush_iff.2 ⟨rfl, rfl⟩)
  | encode buffer brt =>
    exact (readCommand_operands 6 _).trans (readOperands_encode_iff.2 ⟨buffer, brt, rfl, rfl⟩)
  | send bits =>
    exact (readCommand_operands 7 _).trans (readOperands_send_iff.2 ⟨bits, rfl, rfl⟩)
  | word24 w => cases hi
  | sym0 => cases hi
  | sym1 => cases hi
  | reset => cases hi

/-- Whatever is read as operands with a tag was written after that tag. -/
theorem readOperands_inv {tag : Nat} (ht : 0 < tag) (ht' : tag < 8) (h : readOperands tag bs = .ok (i, rest)) :
    BitVec.ofNat 8 tag :: bs = encodeCommand i ++ rest := by
  match tag, ht, ht', h with
  | 1, _, _, h => obtain ⟨index, color, rfl, rfl⟩ := readOperands_set_iff.1 h; rfl
  | 2, _, _, h => obtain ⟨index, rfl, rfl⟩ := readOperands_get_iff.1 h; rfl
  | 3, _, _, h => obtain ⟨color, rfl, rfl⟩ := readOperands_fill_iff.1 h; rfl
  | 4, _, _, h => obtain ⟨rfl, rfl⟩ := readOperands_clear_iff.1 h; rfl
  | 5, _, _, h => obtain ⟨rfl, rfl⟩ := readOperands_flush_iff.1 h; rfl
  | 6, _, _, h => obtain ⟨buffer, brt, rfl, rfl⟩ := readOperands_encode_iff.1 h; rfl
  | 7, _, _, h => obtain ⟨bits, rfl, rfl⟩ := readOperands_send_iff.1 h; rfl

/-- Whatever is read as a command is its encoding, before what is left. -/
theorem readCommand_inv (h : readCommand bs = .ok (i, rest)) : bs = encodeCommand i ++ rest := by
  cases bs with
  | nil => cases h
  | cons header bs =>
    obtain ⟨ht, hlt⟩ | ⟨tag, ht, ht', rfl⟩ := readCommand_header h
    · rw [readCommand_configure ht hlt] at h
      obtain ⟨n, pin, brt, rfl, hf, rfl⟩ := readConfigure_iff.1 h
      rw [header_eq_configureHeader_iff.2 ⟨ht, hlt, hf⟩]
      rfl
    · rw [readCommand_operands tag bs ht ht'] at h
      exact readOperands_inv ht ht' h

theorem decodeCommand_eq_ok_iff : decodeCommand bs = .ok i ↔ readCommand bs = .ok (i, []) := by
  unfold decodeCommand
  split <;> simp_all

theorem decodeCommand_encodeCommand (hi : i.format = .cmd) : decodeCommand (encodeCommand i) = .ok i := by
  have h := readCommand_encodeCommand hi []
  rw [List.append_nil] at h
  exact decodeCommand_eq_ok_iff.2 h

/-! ## Levels of the line -/

/-- A 1 and a 0 differ in tick T1 (R63). -/
theorem sym_true_ne_sym_false {b : Build} (hb : b.legal = true) : sym b true ≠ sym b false := by
  obtain ⟨-, ht2, ht3, -⟩ := build_legal hb
  have hlt : b.t1 < b.tb := by unfold Build.tb; omega
  intro h
  have hlevel : (sym b true)[b.t1]? = (sym b false)[b.t1]? := by rw [h]
  rw [sym_getElem? hlt, sym_getElem? hlt, Option.some.injEq, decide_eq_decide, highLen, highLen] at hlevel
  omega

theorem highLen_pos {b : Build} (hb : b.legal = true) (v : Bool) : 0 < highLen b v := by
  obtain ⟨ht1, -⟩ := build_legal hb
  cases v <;> simp only [highLen] <;> omega

/-- A symbol begins high, a low-hold does not (R63). -/
theorem lowHold_ne_sym {b : Build} (hb : b.legal = true) (n : Nat) (v : Bool) : List.replicate n false ≠ sym b v := by
  obtain ⟨-, -, -, -, htb⟩ := build_legal hb
  intro h
  have hfirst : (sym b v)[0]? = some true := by rw [sym_getElem? (by omega), decide_eq_true (highLen_pos hb v)]
  have hmem : true ∈ sym b v := List.mem_of_getElem? hfirst
  rw [← h] at hmem
  exact absurd (List.eq_of_mem_replicate hmem) (by decide)

theorem decodeLevels_sym {b : Build} (hb : b.legal = true) (v : Bool) :
    decodeLevels b (sym b v) = .ok (if v then .sym1 else .sym0) := by
  cases v with
  | true => simp [decodeLevels]
  | false => simp [decodeLevels, (sym_true_ne_sym_false hb).symm]

theorem decodeLevels_lowHold {b : Build} (hb : b.legal = true) :
    decodeLevels b (List.replicate b.resetTicks false) = .ok .reset := by
  simp [decodeLevels, lowHold_ne_sym hb]

/-! ## The obligations -/

theorem encode_of_cmd (b : Build) (hi : i.format = .cmd) : encode b i = .cmd (encodeCommand i) := by
  cases i <;> cases hi <;> rfl

theorem decode_encode_of_cmd (b : Build) (hi : i.format = .cmd) : decode b (encode b i) = .ok i := by
  rw [encode_of_cmd b hi]
  exact decodeCommand_encodeCommand hi

/-- Settles O54: a command by its bytes, a wire pattern by its levels, a word as itself. -/
theorem decodeOfEncode : Obligations.DecodeOfEncode := by
  intro b i hb
  cases i with
  | word24 w => rfl
  | sym0 => exact decodeLevels_sym hb false
  | sym1 => exact decodeLevels_sym hb true
  | reset => exact decodeLevels_lowHold hb
  | _ => exact decode_encode_of_cmd b rfl

/-- Settles O55: bytes decode where they are read as a command with nothing left over. -/
theorem encodeOfDecode : Obligations.EncodeOfDecode := by
  intro bytes i h
  have hread := readCommand_inv (decodeCommand_eq_ok_iff.1 h)
  rw [hread, List.append_nil]

/-- Settles O56: each word is closed, so the decoder's own evaluation gives its instruction. -/
theorem wordsDecodeAsTheSpecWritesThem : Obligations.WordsDecodeAsTheSpecWritesThem :=
  ⟨rfl, rfl, rfl, rfl, rfl, rfl, rfl, rfl, rfl, rfl, rfl⟩

end Sys2Proof.Machine
end

section
/-! The line read and run: a frame's bits back from its levels (R65), the patterns SYM0, SYM1 and RESET (R63), the fields of a wire word
(R62), the defaults of CONFIGURE (R74), and the moves that run no instruction (log 2). -/
namespace Sys2Proof.Machine

/-! ## Reading a frame back -/

variable {b : Build}

/-- A high run is counted on to its end. -/
theorem readFrame_highRun (high low n : Nat) (rest : List Bool) :
    readFrame b high low (List.replicate (n + 1) true ++ rest) = readFrame b (high + (n + 1)) 0 rest := by
  induction n generalizing high low with
  | zero => rfl
  | succ n ih =>
    have hstep : readFrame b high low (List.replicate (n + 1 + 1) true ++ rest) =
        readFrame b (high + 1) 0 (List.replicate (n + 1) true ++ rest) := rfl
    rw [hstep, ih]
    congr 1
    omega

/-- A low run shorter than the low-hold is counted on. -/
theorem readFrame_lowRun {low n : Nat} (h : low + n < b.resetTicks) (rest : List Bool) :
    readFrame b 0 low (List.replicate n false ++ rest) = readFrame b 0 (low + n) rest := by
  induction n generalizing low with
  | zero => rfl
  | succ n ih =>
    rw [List.replicate_succ, List.cons_append, readFrame, if_pos rfl, if_neg (by omega), ih (by omega)]
    congr 1
    omega

/-- A low run that reaches RESET_TICKS ends the frame, whatever follows. -/
theorem readFrame_lowHold {low n : Nat} (hn : 0 < n) (h : b.resetTicks ≤ low + n) (rest : List Bool) :
    readFrame b 0 low (List.replicate n false ++ rest) = some [] := by
  induction n generalizing low with
  | zero => omega
  | succ n ih =>
    rw [List.replicate_succ, List.cons_append, readFrame, if_pos rfl]
    split_ifs with hlow
    · rfl
    · exact ih (by omega) (by omega)

/-- A falling edge yields the bit of the high run before it. -/
theorem readFrame_fall {high : Nat} {v : Bool} (hh : high ≠ 0) (hv : bitOfHighRun b high = some v) (hr : 1 < b.resetTicks)
    (low : Nat) (rest : List Bool) :
    readFrame b high low (false :: rest) = (readFrame b 0 1 rest).map (v :: ·) := by
  rw [readFrame, if_neg hh, hv]
  exact if_neg (by omega)

/-- The high length of a symbol stands for its bit (R65, R110). -/
theorem bitOfHighRun_highLen (hb : b.legal = true) (v : Bool) : bitOfHighRun b (highLen b v) = some v := by
  obtain ⟨-, ht2, -⟩ := build_legal hb
  cases v with
  | true => exact if_pos rfl
  | false => exact (if_neg (by simp only [highLen]; omega)).trans (if_pos rfl)

theorem lowLen_pos (hb : b.legal = true) (v : Bool) : 0 < lowLen b v := by
  obtain ⟨-, -, ht3, -⟩ := build_legal hb
  cases v <;> simp only [lowLen] <;> omega

theorem lowLen_le (b : Build) (v : Bool) : lowLen b v ≤ b.t2 + b.t3 := by
  cases v <;> simp only [lowLen] <;> omega

/-- A symbol reads as its bit, and leaves its low run under way. -/
theorem readFrame_sym (hb : b.legal = true) (hr : b.t2 + b.t3 < b.resetTicks) (v : Bool) (low : Nat) (rest : List Bool) :
    readFrame b 0 low (sym b v ++ rest) = (readFrame b 0 (lowLen b v) rest).map (v :: ·) := by
  have hhigh := highLen_pos hb v
  have hlow := lowLen_pos hb v
  have hle := lowLen_le b v
  obtain ⟨m, hm⟩ : ∃ m, highLen b v = m + 1 := Nat.exists_eq_add_one_of_ne_zero hhigh.ne'
  obtain ⟨n, hn⟩ : ∃ n, lowLen b v = n + 1 := Nat.exists_eq_add_one_of_ne_zero hlow.ne'
  calc readFrame b 0 low (sym b v ++ rest)
      = readFrame b (highLen b v) 0 (List.replicate (lowLen b v) false ++ rest) := by
        rw [sym, List.append_assoc, hm, readFrame_highRun, Nat.zero_add]
    _ = (readFrame b 0 1 (List.replicate n false ++ rest)).map (v :: ·) := by
        rw [hn, List.replicate_succ, List.cons_append,
          readFrame_fall hhigh.ne' (bitOfHighRun_highLen hb v) (by omega)]
    _ = (readFrame b 0 (lowLen b v) rest).map (v :: ·) := by
        rw [readFrame_lowRun (by omega), hn, Nat.add_comm]

/-- The symbols of a frame and its low-hold read as its bits, whatever low run shorter than the low-hold came before. -/
theorem readFrame_frameWave (hb : b.legal = true) (hr : b.t2 + b.t3 < b.resetTicks) (bits after : List Bool) {low : Nat}
    (hlow : low < b.resetTicks) : readFrame b 0 low (frameWave b bits ++ after) = some bits := by
  induction bits generalizing low with
  | nil => exact readFrame_lowHold (by omega) (by omega) after
  | cons v bits ih =>
    have hsplit : frameWave b (v :: bits) ++ after = sym b v ++ (frameWave b bits ++ after) := by simp [frameWave]
    rw [hsplit, readFrame_sym hb hr, ih ((lowLen_le b v).trans_lt hr)]
    rfl

/-- Settles O34, with no low run before the frame. -/
theorem frameReadsBack : Obligations.FrameReadsBack := fun _ bits after hb hr =>
  readFrame_frameWave hb hr bits after (by omega)

/-! ## Wire patterns -/

/-- A one-bit pattern where TXQ begins with its bit (R63, R114). -/
theorem emitBits_singleton {s : State} {v : Bool} {tl : List Bool} (hp : s.seq.phase = .shift) (hq : s.seq.txq = v :: tl) :
    emitBits [v] s = .next { s with
      seq := if tl = [] then { phase := .latch, txq := [], tck := 0, hold := s.build.resetTicks }
        else { phase := .shift, txq := tl, tck := 0, hold := 0 }
      trace := s.trace ++ (sym s.build v).drop s.seq.tck } := by
  have hsym : symbols s.build [v] = sym s.build v := by simp
  rw [emitBits_of_prefix hp (rest := tl) hq, load_eq_ite, hsym]

/-- Settles O35: the levels are those of R63's two symbols. -/
theorem symbolsOnTheLine : Obligations.SymbolsOnTheLine := fun _ _ hp =>
  ⟨fun hq => emitBits_singleton hp hq, fun hq => emitBits_singleton hp hq⟩

theorem emitLowHold_of_latch {s : State} (hp : s.seq.phase = .latch) :
    emitLowHold s = .next { s with seq := .idle, trace := s.trace ++ List.replicate s.seq.hold false } :=
  if_pos hp

/-- Settles O37: what is left of the low-hold, then IDLE. -/
theorem lowHoldOnTheLine : Obligations.LowHoldOnTheLine := fun _ hp => emitLowHold_of_latch hp

/-! ## Wire words -/

/-- Bit k of a wire word, by the field it stands in. -/
theorem word_getLsbD (f : ScaleReading) (c : Color) (brt : F32) {k : Nat} (hk : k < 24) :
    (word f c brt).getLsbD k =
      if k < 8 then (scaleBy f c.b brt).getLsbD k
      else if k < 16 then (scaleBy f c.r brt).getLsbD (k - 8) else (scaleBy f c.g brt).getLsbD (k - 16) := by
  have above : ∀ (x : Channel) {j : Nat}, 8 ≤ j → x.getLsbD j = false := fun x j hj => BitVec.getLsbD_of_ge x j hj
  simp only [word, BitVec.getLsbD_or, BitVec.getLsbD_shiftLeft, BitVec.getLsbD_setWidth]
  by_cases h8 : k < 8
  · simp [h8, hk, show k < 16 by omega]
  by_cases h16 : k < 16
  · simp [h8, h16, hk, above _ (show 8 ≤ k by omega), show k - 8 < 24 by omega]
  · simp [h8, h16, hk, above _ (show 8 ≤ k by omega), above _ (show 8 ≤ k - 8 by omega), show k - 16 < 24 by omega]

/-- A channel is a field of a wire word where their bits agree. -/
theorem extractLsb'_eq_of_getLsbD {w : WireWord} {n : Nat} {x : Channel}
    (h : ∀ k, k < 8 → w.getLsbD (n + k) = x.getLsbD k) : w.extractLsb' n 8 = x := by
  refine BitVec.eq_of_getLsbD_eq fun k hk => ?_
  rw [BitVec.getLsbD_extractLsb', h k hk]
  simp [hk]

/-- Settles O24, bit by bit. -/
theorem wireWordFields : Obligations.WireWordFields := by
  intro f c brt
  refine ⟨extractLsb'_eq_of_getLsbD fun k hk => ?green, extractLsb'_eq_of_getLsbD fun k hk => ?red,
    extractLsb'_eq_of_getLsbD fun k hk => ?blue⟩
  case green =>
    rw [word_getLsbD f c brt (by omega), if_neg (by omega), if_neg (by omega), Nat.add_sub_cancel_left]
  case red =>
    rw [word_getLsbD f c brt (by omega), if_neg (by omega), if_pos (by omega), Nat.add_sub_cancel_left]
  case blue =>
    rw [word_getLsbD f c brt (by omega), if_pos (by omega), Nat.zero_add]

/-! ## Omitted options, and moves without an instruction -/

/-- Settles O7: CONFIGURE reads an option only by its value or default. -/
theorem omittedOptionsTakeTheirDefaults : Obligations.OmittedOptionsTakeTheirDefaults := fun _ _ _ _ =>
  ⟨rfl, rfl, rfl⟩

/-- Settles O5: the equations of a step, one per move. -/
theorem stepWithoutInstruction : Obligations.StepWithoutInstruction := by
  intro s rest
  refine ⟨step_silent, fun _ => step_wait_succ, step_wait_zero, fun hs hbusy => ?_, fun hs hbusy => ?_,
    fun _ => step_periphAvail⟩
  · rw [step_waitIdle hs, if_pos hbusy]
  · rw [step_waitIdle hs, if_neg (by simp [hbusy])]

end Sys2Proof.Machine
end

section
/-! CONFIGURE (R80): the strip it constructs, the errors it reports and their order, and how long the configuration lasts (R81). -/
namespace Sys2Proof.Machine

/-- The strip R80 constructs, its PixelBuffer holding PB_INIT. -/
def Strip.initial (n : U32) (pin : PinId) (brt : F32) : Strip where
  ledCount := n
  outputPin := pin
  brightness := brt
  pb := []

theorem strip_initial_read (b : Build) (n : U32) (pin : PinId) (brt : F32) (i : Nat) :
    (Strip.initial n pin brt).read b i = initialColor b i := memory_read_nil i

section
variable {s : State} {n : Option U32} {pin : Option PinId} {brt : Option F32}

/-- A CONFIGURE of the host before construction runs R80's two checks, LED_COUNT first, and then constructs the strip. -/
theorem exec_configure (hi : s.issuer = .host) (hl : s.life = .unconfigured) :
    exec (.configure n pin brt) s =
      if optionOr 16#32 n = 0#32 then raise (.configuration (.ledCount (optionOr 16#32 n))) s
      else if ¬ validBrt (optionOr s.build.brtDefault brt) then
        raise (.configuration (.brightness (optionOr s.build.brtDefault brt))) s
      else respond .ok
        { s with life := .ready (.initial (optionOr 16#32 n) (optionOr 6 pin) (optionOr s.build.brtDefault brt)) } :=
  (fromHost_of_host _ hi).trans (whenUnconfigured_of_unconfigured _ hl)

theorem exec_configure_legal (hi : s.issuer = .host) (hl : s.life = .unconfigured) (hn : optionOr 16#32 n ≠ 0#32)
    (hb : validBrt (optionOr s.build.brtDefault brt) = true) :
    exec (.configure n pin brt) s = .next
      { s with
        life := .ready (.initial (optionOr 16#32 n) (optionOr 6 pin) (optionOr s.build.brtDefault brt))
        rsp := some .ok } := by
  rw [exec_configure hi hl, if_neg hn, if_neg (not_not_intro hb), respond_eq]

theorem exec_configure_ledCount (hi : s.issuer = .host) (hl : s.life = .unconfigured) (hn : optionOr 16#32 n = 0#32) :
    exec (.configure n pin brt) s = raise (.configuration (.ledCount 0#32)) s := by
  rw [exec_configure hi hl, if_pos hn, hn]

theorem exec_configure_brightness (hi : s.issuer = .host) (hl : s.life = .unconfigured) (hn : optionOr 16#32 n ≠ 0#32)
    (hb : validBrt (optionOr s.build.brtDefault brt) = false) :
    exec (.configure n pin brt) s = raise (.configuration (.brightness (optionOr s.build.brtDefault brt))) s := by
  rw [exec_configure hi hl, if_neg hn, if_pos (by simp [hb])]

end

/-- Settles O6: the strip is the initial one, and every entry of it reads PB_INIT. -/
theorem configureConstructsTheStrip : Obligations.ConfigureConstructsTheStrip := by
  intro s n pin brt hi hl hn hb
  exact ⟨_, exec_configure_legal hi hl hn hb, rfl, rfl, rfl, fun i _ => strip_initial_read _ _ _ _ i⟩

/-- Settles O8: each failing check raises its own error, and the brightness is looked at only past the led_count. -/
theorem configureReportsLedCountThenBrightness : Obligations.ConfigureReportsLedCountThenBrightness := by
  intro s n pin brt hi hl
  refine ⟨fun hn => ?ledCount, fun hn hb => ?brightness⟩
  case ledCount => exact (exec_configure_ledCount (n := some n) hi hl hn).trans (raise_eq _ s)
  case brightness => exact (exec_configure_brightness (n := some n) (brt := some brt) hi hl hn hb).trans (raise_eq _ s)

/-- Settles O9: every step that is not a reset keeps the configuration, and a reset leaves no strip. -/
theorem configurationIsFixedUntilReset : Obligations.ConfigurationIsFixedUntilReset :=
  ⟨fun _ _ _ => step_configuredAs, fun _ _ hs => ⟨_, step_reset hs, resetBlock_life _⟩⟩

end Sys2Proof.Machine
end

section
/-! The block's floating point (R92, R93, R98): rounding never passes a representable value and keeps the order; with it, which brightness
patterns are legal, and the laws of the two readings of ScaleFn. -/
namespace Sys2Proof.Machine

/-! ## Rounding, by the value it gives -/

/-- The sign bit has no part in a pattern's magnitude. -/
theorem magnitude_ofNat_sign {n : Nat} (h : n < 2 ^ 31) : magnitude (BitVec.ofNat 32 (n + 2 ^ 31)) = magnitude (BitVec.ofNat 32 n) := by
  have hneg : (n + 2 ^ 31) % 2 ^ 32 = n + 2 ^ 31 := by omega
  have hpos : n % 2 ^ 32 = n := by omega
  have hexp : (n + 2 ^ 31) / 2 ^ 23 % 256 = n / 2 ^ 23 % 256 := by omega
  have hfrac : (n + 2 ^ 31) % 2 ^ 23 = n % 2 ^ 23 := by omega
  simp only [magnitude, significand, exponentField, fractionField, BitVec.toNat_ofNat, hneg, hpos, hexp, hfrac]

/-- The rounded pattern: significand and power of its last bit, up to infinity, then the sign bit. -/
theorem roundToF32_eq (negative : Bool) (p k : Nat) : roundToF32 negative p k =
    BitVec.ofNat 32 (min (lastBit p k * 2 ^ 23 + roundedSignificand p k) 0x7F800000 + negative.toNat * 2 ^ 31) := rfl

theorem magnitude_roundToF32_sign (negative : Bool) (p k : Nat) :
    magnitude (roundToF32 negative p k) = magnitude (roundToF32 false p k) := by
  have hle (n : Nat) : min n 0x7F800000 < 2 ^ 31 := by omega
  cases negative with
  | false => rfl
  | true =>
    rw [roundToF32_eq, roundToF32_eq, Bool.toNat_true, Nat.one_mul, Bool.toNat_false, Nat.zero_mul, Nat.add_zero]
    exact magnitude_ofNat_sign (hle _)

section
variable {p k : Nat} (hp : p ≤ (2 ^ 24 - 1) * 2 ^ (253 + k))
include hp

theorem roundToF32_finite : (roundToF32 false p k).toNat < 0x7F800000 := by
  rw [toNat_roundToF32 (no_overflow hp)]
  exact no_overflow hp

/-- No finite value is nearer to `p x 2^-(149 + k)` than the rounded one (R98). -/
theorem roundToF32_near {z : F32} (hz : z.toNat < 0x7F800000) :
    ((magnitude (roundToF32 false p k) * 2 ^ k : Nat) - p : Int).natAbs ≤ ((magnitude z * 2 ^ k : Nat) - p : Int).natAbs := by
  rw [magnitude_roundToF32 (no_overflow hp), Nat.mul_assoc, ← Nat.pow_add, Nat.add_comm _ k]
  exact (roundedSignificand_near p k hz).1

theorem le_roundToF32 {z : F32} (hz : z.toNat < 0x7F800000) (h : magnitude z * 2 ^ k ≤ p) :
    magnitude z ≤ magnitude (roundToF32 false p k) := by
  have hnear := roundToF32_near hp hz
  exact Nat.le_of_mul_le_mul_right (by omega) (Nat.two_pow_pos k)

theorem roundToF32_le {z : F32} (hz : z.toNat < 0x7F800000) (h : p ≤ magnitude z * 2 ^ k) :
    magnitude (roundToF32 false p k) ≤ magnitude z := by
  have hnear := roundToF32_near hp hz
  exact Nat.le_of_mul_le_mul_right (by omega) (Nat.two_pow_pos k)

end

/-- Rounding keeps the order: were the smaller product rounded above the greater one, swapping the two results
would bring one of them nearer to its product. -/
theorem roundToF32_mono {p p' k : Nat} (hp' : p' ≤ (2 ^ 24 - 1) * 2 ^ (253 + k)) (h : p ≤ p') :
    magnitude (roundToF32 false p k) ≤ magnitude (roundToF32 false p' k) := by
  rcases Nat.eq_or_lt_of_le h with rfl | hlt
  · exact le_rfl
  have hp := Nat.le_trans h hp'
  have hnear := roundToF32_near hp (roundToF32_finite hp')
  have hnear' := roundToF32_near hp' (roundToF32_finite hp)
  exact Nat.le_of_mul_le_mul_right (by omega) (Nat.two_pow_pos k)

theorem magnitude_largest : magnitude 0x7F7FFFFF#32 = (2 ^ 24 - 1) * 2 ^ 253 := rfl

/-- Finite non-negative patterns are determined by their value. -/
theorem magnitude_ne {z w : F32} (hz : z.toNat < 0x7F800000) (hw : w.toNat < 0x7F800000) (h : z ≠ w) : magnitude z ≠ magnitude w := by
  rcases Nat.lt_or_gt_of_ne (mt BitVec.eq_of_toNat_eq h) with hlt | hlt
  · exact (magnitude_lt hz hw hlt).ne
  · exact (magnitude_lt hw hz hlt).ne'

/-- Settles O23: the product of two non-negative operands is one rounding of their exact product, which does not overflow. -/
theorem productIsRoundedToNearestEven : Obligations.ProductIsRoundedToNearestEven := by
  intro x y z hx hy hz hmax
  have hp : magnitude x * magnitude y ≤ (2 ^ 24 - 1) * 2 ^ (253 + 149) := by
    rwa [Nat.pow_add, ← Nat.mul_assoc, ← magnitude_largest]
  have hmul : mul32 x y = roundToF32 false (magnitude x * magnitude y) 149 := by
    simp [mul32, signBit_finite hx, signBit_finite hy]
  have hfinite := roundToF32_finite hp
  have hval := magnitude_roundToF32 (no_overflow hp)
  obtain ⟨hnear, heven⟩ := roundedSignificand_near (magnitude x * magnitude y) 149 hz
  rw [Nat.add_comm 149, Nat.pow_add, ← Nat.mul_assoc, ← hval] at hnear heven
  push_cast at hnear heven
  rw [hmul]
  refine ⟨hfinite, hnear, fun hne htie => ?_⟩
  have hlast := heven (magnitude_ne hz hfinite hne) htie
  rw [toNat_roundToF32 (no_overflow hp)]
  omega

/-! ## Legal brightness -/

theorem magnitude_one : magnitude 0x3F800000#32 = 2 ^ 149 := rfl

/-- `valid_brt` in terms of the value: no NaN, 0 <= b <= 1 (R92). -/
theorem validBrt_iff {b : F32} : validBrt b = true ↔ isNaN b = false ∧ 0 ≤ signedValue b ∧ signedValue b ≤ 2 ^ 149 := by
  have hzero : isNaN 0x00000000#32 = false ∧ signedValue 0x00000000#32 = 0 := by decide
  have hone : isNaN 0x3F800000#32 = false ∧ signedValue 0x3F800000#32 = 2 ^ 149 := ⟨by decide, rfl⟩
  simp only [validBrt, leF32, hzero, hone, Bool.and_eq_true, Bool.not_eq_true', Bool.not_false, decide_eq_true_eq]
  tauto

theorem signedValue_finite {x : F32} (h : x.toNat < 0x7F800000) : signedValue x = magnitude x :=
  if_neg (by simp [signBit_finite h])

theorem natAbs_signedValue (x : F32) : (signedValue x).natAbs = magnitude x := by
  unfold signedValue
  split <;> simp

/-- A legal brightness is at most 1 in value. -/
theorem magnitude_le_of_validBrt {b : F32} (hb : validBrt b = true) : magnitude b ≤ 2 ^ 149 := by
  obtain ⟨-, hnonneg, hle⟩ := validBrt_iff.1 hb
  have habs := natAbs_signedValue b
  omega

/-- With the sign bit set only -0.0 is legal, every other pattern being negative. -/
theorem validBrt_of_sign {b : F32} (hs : 2 ^ 31 ≤ b.toNat) : validBrt b = true ↔ b = 0x80000000#32 := by
  refine ⟨fun hb => ?_, by rintro rfl; decide⟩
  obtain ⟨-, hnonneg, -⟩ := validBrt_iff.1 hb
  have hsign : signBit b = true := by simpa [signBit, BitVec.msb_eq_decide] using hs
  have hmag : magnitude b = 0 := by rw [signedValue, if_pos hsign] at hnonneg; omega
  have hsig : significand b = 0 := (Nat.mul_eq_zero.1 hmag).resolve_right (Nat.two_pow_pos _).ne'
  have hlt := b.isLt
  refine BitVec.eq_of_toNat_eq (?_ : b.toNat = 2 ^ 31)
  unfold significand exponentField fractionField at hsig
  split at hsig <;> omega

/-- Past the largest finite value there are the infinity and NaNs, and none of them is legal. -/
theorem not_validBrt_of_nonfinite {b : F32} (hlo : 0x7F800000 ≤ b.toNat) (hhi : b.toNat < 2 ^ 31) : ¬ validBrt b = true := by
  intro hb
  have hle := magnitude_le_of_validBrt hb
  have hexp : exponentField b = 255 := by unfold exponentField; omega
  have hsig : 1 ≤ significand b := by simp [significand, hexp]; omega
  have hmag : 1 * 2 ^ 254 ≤ magnitude b := by
    rw [magnitude, hexp]
    exact Nat.mul_le_mul_right _ hsig
  omega

/-- Without a sign bit the legal patterns are those up to 1.0, since patterns are ordered as their values. -/
theorem validBrt_of_finite {b : F32} (hf : b.toNat < 0x7F800000) : validBrt b = true ↔ b.toNat ≤ 0x3F800000 := by
  have hone : (0x3F800000#32).toNat < 0x7F800000 := by decide
  refine ⟨fun hb => ?_, fun hle => ?_⟩
  · by_contra hgt
    have hlt := magnitude_lt hone hf (Nat.lt_of_not_le hgt)
    have hle := magnitude_le_of_validBrt hb
    rw [magnitude_one] at hlt
    omega
  · have hexp : exponentField b ≠ 255 := by unfold exponentField; omega
    have hmag : magnitude b ≤ 2 ^ 149 := by
      rcases Nat.eq_or_lt_of_le hle with heq | hlt
      · obtain rfl : b = 0x3F800000#32 := BitVec.eq_of_toNat_eq heq
        exact magnitude_one.le
      · exact (magnitude_lt hf hone hlt).le
    rw [validBrt_iff, signedValue_finite hf]
    exact ⟨by simp [isNaN, hexp], Int.natCast_nonneg _, by exact_mod_cast hmag⟩

/-- Settles O20, by the three ranges of a pattern: finite without a sign, infinity or NaN without a sign, and with the sign bit. -/
theorem legalBrightnessPatterns : Obligations.LegalBrightnessPatterns := by
  intro b
  have hminus : b.toNat < 2 ^ 31 → b ≠ 0x80000000#32 := by rintro h rfl; exact absurd h (by decide)
  rcases Nat.lt_or_ge b.toNat 0x7F800000 with hfin | hfin
  · rw [validBrt_of_finite hfin, or_iff_left (hminus (by omega))]
  rcases Nat.lt_or_ge b.toNat (2 ^ 31) with hsign | hsign
  · exact iff_of_false (not_validBrt_of_nonfinite hfin hsign) (not_or.2 ⟨by omega, hminus hsign⟩)
  · rw [validBrt_of_sign hsign]
    exact (or_iff_right (by omega)).symm

/-! ## ScaleFn -/

/-- The channel converts exactly (R93), so the product is rounded once, from its exact value in units of 2^-298. -/
theorem magnitude_mul32_channel (c : Channel) (b : F32) :
    magnitude (mul32 (f32OfChannel c) b) = magnitude (roundToF32 false (c.toNat * magnitude b * 2 ^ 149) 149) := by
  rw [mul32, magnitude_roundToF32_sign, (f32OfChannel_spec c).1, Nat.mul_right_comm]

section
variable {b : F32} (hb : validBrt b = true)
include hb

theorem channel_mul_magnitude_le (c : Channel) : c.toNat * magnitude b ≤ c.toNat * 2 ^ 149 :=
  Nat.mul_le_mul_left _ (magnitude_le_of_validBrt hb)

/-- A channel at a legal brightness stays far below the largest finite value. -/
theorem channel_product_le (c : Channel) : c.toNat * magnitude b * 2 ^ 149 ≤ (2 ^ 24 - 1) * 2 ^ (253 + 149) := by
  have hc := c.isLt
  rw [Nat.pow_add, ← Nat.mul_assoc]
  refine Nat.mul_le_mul_right _ ((channel_mul_magnitude_le hb c).trans (Nat.mul_le_mul (by omega) ?_))
  exact Nat.pow_le_pow_right (by decide) (by decide)

/-- A product that reaches an integer `n` of a channel's range is not rounded below it, since `n` is a binary32 value. -/
theorem le_floor_mul32 {c n : Channel} (h : n.toNat * 2 ^ 149 ≤ c.toNat * magnitude b) :
    n.toNat ≤ floorF32 (mul32 (f32OfChannel c) b) := by
  obtain ⟨hn, hfin⟩ := f32OfChannel_spec n
  rw [floorF32, Nat.le_div_iff_mul_le (Nat.two_pow_pos _), ← hn, magnitude_mul32_channel]
  exact le_roundToF32 (channel_product_le hb c) hfin (by rw [hn]; exact Nat.mul_le_mul_right _ h)

/-- Nor is a product up to `n` rounded above it. -/
theorem floor_mul32_le {c n : Channel} (h : c.toNat * magnitude b ≤ n.toNat * 2 ^ 149) :
    floorF32 (mul32 (f32OfChannel c) b) ≤ n.toNat := by
  obtain ⟨hn, hfin⟩ := f32OfChannel_spec n
  refine Nat.div_le_of_le_mul ?_
  rw [Nat.mul_comm, ← hn, magnitude_mul32_channel]
  exact roundToF32_le (channel_product_le hb c) hfin (by rw [hn]; exact Nat.mul_le_mul_right _ h)

/-- The floor of the rounded product fits in a channel. -/
theorem scale_toNat (c : Channel) : (scale c b).toNat = floorF32 (mul32 (f32OfChannel c) b) := by
  have hle := floor_mul32_le hb (channel_mul_magnitude_le hb c)
  rw [scale, BitVec.toNat_ofNat, Nat.mod_eq_of_lt (Nat.lt_of_le_of_lt hle c.isLt)]

/-- The floor of the exact product fits in a channel. -/
theorem scaleExact_toNat (c : Channel) : (scaleExact c b).toNat = c.toNat * magnitude b / 2 ^ 149 := by
  have hle : c.toNat * magnitude b / 2 ^ 149 ≤ c.toNat :=
    Nat.div_le_of_le_mul ((channel_mul_magnitude_le hb c).trans (Nat.mul_comm ..).le)
  rw [scaleExact, BitVec.toNat_ofNat, Nat.mod_eq_of_lt (Nat.lt_of_le_of_lt hle c.isLt)]

variable {f : ScaleReading} (hf : f ≠ .free)
include hf

/-- A reading of R93 is at least every integer of a channel's range up to the product. -/
theorem le_scaleBy {c n : Channel} (h : n.toNat * 2 ^ 149 ≤ c.toNat * magnitude b) : n.toNat ≤ (scaleBy f c b).toNat := by
  cases f with
  | binary32 => exact scale_toNat hb c ▸ le_floor_mul32 hb h
  | exact => exact scaleExact_toNat hb c ▸ (Nat.le_div_iff_mul_le (Nat.two_pow_pos _)).2 h
  | free => exact absurd rfl hf

/-- And it is at most every such integer from the product on. -/
theorem scaleBy_le {c n : Channel} (h : c.toNat * magnitude b ≤ n.toNat * 2 ^ 149) : (scaleBy f c b).toNat ≤ n.toNat := by
  cases f with
  | binary32 => exact scale_toNat hb c ▸ floor_mul32_le hb h
  | exact => exact scaleExact_toNat hb c ▸ Nat.div_le_of_le_mul (h.trans (Nat.mul_comm ..).le)
  | free => exact absurd rfl hf

/-- R94 (e): a product that is an integer is its own scaled value. -/
theorem scaleBy_of_integer {c : Channel} {k : Nat} (h : c.toNat * magnitude b = k * 2 ^ 149) : (scaleBy f c b).toNat = k := by
  have hkc : k ≤ c.toNat := Nat.le_of_mul_le_mul_right (h.ge.trans (channel_mul_magnitude_le hb c)) (Nat.two_pow_pos 149)
  obtain ⟨n, rfl⟩ : ∃ n : Channel, n.toNat = k := ⟨BitVec.ofNat 8 k, by
    rw [BitVec.toNat_ofNat, Nat.mod_eq_of_lt (Nat.lt_of_le_of_lt hkc c.isLt)]⟩
  exact Nat.le_antisymm (scaleBy_le hb hf h.le) (le_scaleBy hb hf h.ge)

/-- R94 (d): the greater product has the greater scaled value. -/
theorem scaleBy_mono {c c' : Channel} {b' : F32} (hb' : validBrt b' = true)
    (h : c.toNat * magnitude b ≤ c'.toNat * magnitude b') : (scaleBy f c b).toNat ≤ (scaleBy f c' b').toNat := by
  cases f with
  | binary32 =>
    show (scale c b).toNat ≤ (scale c' b').toNat
    rw [scale_toNat hb, scale_toNat hb', floorF32, floorF32, magnitude_mul32_channel, magnitude_mul32_channel]
    exact Nat.div_le_div_right (roundToF32_mono (channel_product_le hb' c') (Nat.mul_le_mul_right _ h))
  | exact =>
    show (scaleExact c b).toNat ≤ (scaleExact c' b').toNat
    rw [scaleExact_toNat hb, scaleExact_toNat hb']
    exact Nat.div_le_div_right h
  | free => exact absurd rfl hf

end

/-- The free function does not exceed the channel, by its own checks. -/
theorem scaleFree_le (c : Channel) (b : F32) : (scaleFree c b).toNat ≤ c.toNat := by
  unfold scaleFree
  split_ifs with hzero hone hsmall habove
  · exact Nat.zero_le _
  · exact le_rfl
  · exact Nat.zero_le _
  · exact le_rfl
  · exact Nat.le_of_not_lt habove

/-- R94 (a), for every ScaleFn. -/
theorem scaleBy_le_channel (f : ScaleReading) (c : Channel) {b : F32} (hb : validBrt b = true) : (scaleBy f c b).toNat ≤ c.toNat := by
  by_cases hf : f = .free
  · subst hf
    exact scaleFree_le c b
  · exact scaleBy_le hb hf (channel_mul_magnitude_le hb c)

/-- R94 (b): a product of value 0 scales to 0. -/
theorem scaleBy_eq_zero {f : ScaleReading} {c : Channel} {b : F32} (hb : validBrt b = true)
    (h : c = 0#8 ∨ b = 0x00000000#32 ∨ b = 0x80000000#32) : scaleBy f c b = 0#8 := by
  by_cases hf : f = .free
  · subst hf
    exact if_pos h
  · have hzero : c.toNat * magnitude b = 0 * 2 ^ 149 := by
      rcases h with rfl | rfl | rfl
      · simp
      · exact Nat.mul_zero _
      · exact Nat.mul_zero _
    exact BitVec.eq_of_toNat_eq (scaleBy_of_integer hb hf hzero)

/-- R94 (c): brightness 1.0 leaves the channel. -/
theorem scaleBy_one (f : ScaleReading) (c : Channel) : scaleBy f c 0x3F800000#32 = c := by
  by_cases hf : f = .free
  · subst hf
    by_cases hc : c = 0#8 <;> simp [scaleBy, scaleFree, hc]
  · exact BitVec.eq_of_toNat_eq (scaleBy_of_integer (by decide) hf (congrArg (c.toNat * ·) magnitude_one))

/-- R94 (f)'s example: 3 x 0.2 is below 1. -/
theorem scaleBy_three_at_fifth (f : ScaleReading) : scaleBy f 3#8 0x3E4CCCCD#32 = 0#8 := by
  cases f with
  | binary32 => rfl
  | exact => rfl
  | free => simp [scaleBy, scaleFree]

/-- Settles O21, law by law. -/
theorem scaleLaws : Obligations.ScaleLaws := by
  intro f c c' b b' hb hb'
  refine ⟨scaleBy_le_channel f c hb, scaleBy_eq_zero (by decide) (.inr (.inl rfl)), scaleBy_eq_zero (by decide) (.inr (.inr rfl)),
    scaleBy_eq_zero hb (.inl rfl), scaleBy_one f c, scaleBy_three_at_fifth f, ?monoChannel, ?monoBrightness, ?exactInteger⟩
  case monoChannel => exact fun hf hc => scaleBy_mono hb hf hb (Nat.mul_le_mul_right _ hc)
  case monoBrightness => exact fun hf hm => scaleBy_mono hb hf hb' (Nat.mul_le_mul_left _ hm)
  case exactInteger => exact fun hf _ hk => scaleBy_of_integer hb hf hk

/-- Settles O22: the floor of the exact product and the integer above it bound the product, so they bound the binary32 reading. -/
theorem readingsDifferByAtMostOne : Obligations.ReadingsDifferByAtMostOne := by
  intro c b hb
  have hbinary : ScaleReading.binary32 ≠ .free := by decide
  have hfloor := scaleExact_toNat hb c
  refine ⟨le_scaleBy (f := .binary32) hb hbinary ?lower, ?upper⟩
  case lower => exact hfloor ▸ Nat.div_mul_le_self ..
  case upper =>
    have hc : (scale c b).toNat ≤ c.toNat := scaleBy_le_channel .binary32 c hb
    rcases Nat.lt_or_ge (scaleExact c b).toNat c.toNat with hlt | hge
    · have hsucc : (scaleExact c b + 1#8).toNat = (scaleExact c b).toNat + 1 := by
        have := c.isLt
        rw [BitVec.toNat_add]
        exact Nat.mod_eq_of_lt (by simp; omega)
      refine hsucc ▸ scaleBy_le (f := .binary32) hb hbinary ?_
      rw [hsucc, hfloor]
      exact (Nat.lt_div_mul_add (Nat.two_pow_pos _)).le.trans (Nat.succ_mul ..).ge
    · omega

end Sys2Proof.Machine
end

section
/-! The encoder front end (R95, R96): ENCODE and FLUSH on a constructed strip, their errors in the order of R172, and the frame they load. -/
namespace Sys2Proof.Machine

section
variable {s : State}

/-! ## SEND's outcomes, one by one (R111) -/

theorem sendBits_busy (bits : List Bool) (h : s.seq.phase ≠ .idle) : sendBits bits s = raise (.hardware .busy) s := by
  simp [sendBits, h]

theorem sendBits_unavailable (bits : List Bool) (h : s.seq.phase = .idle) (ha : s.periphAvail = false) :
    sendBits bits s = raise (.hardware .unavailable) s := by
  simp [sendBits, h, ha]

/-! ## ENCODE and FLUSH on a constructed strip -/

variable {p : Strip} {buffer : List Color} {brt : F32}

theorem exec_encode (buffer : List Color) (brt : F32) (hi : s.issuer = .host) (hl : s.life = .ready p) :
    exec (.encode buffer brt) s = encodeAndSend buffer brt p s :=
  (fromHost_of_host _ hi).trans (whenReady_of_ready _ hl)

/-- FLUSH is ENCODE of the PixelBuffer at CFG.BRT (R96). -/
theorem exec_flush_eq_encode (hi : s.issuer = .host) (hl : s.life = .ready p) :
    exec .flush s = exec (.encode (p.colors s.build) p.brightness) s :=
  ((fromHost_of_host _ hi).trans (whenReady_of_ready _ hl)).trans (exec_encode _ _ hi hl).symm

theorem exec_encode_length (hi : s.issuer = .host) (hl : s.life = .ready p) (hlen : buffer.length ≠ p.ledCount.toNat) :
    exec (.encode buffer brt) s = raise (.configuration (.length buffer.length p.ledCount)) s := by
  rw [exec_encode buffer brt hi hl, encodeAndSend, if_pos hlen]

theorem exec_encode_brightness (hi : s.issuer = .host) (hl : s.life = .ready p) (hlen : buffer.length = p.ledCount.toNat)
    (hb : validBrt brt = false) : exec (.encode buffer brt) s = raise (.configuration (.brightness brt)) s := by
  rw [exec_encode buffer brt hi hl, encodeAndSend, if_neg (not_not_intro hlen), if_pos (by simp [hb])]

/-- Past its own two checks ENCODE is SEND of the frame's bits (R95). -/
theorem exec_encode_legal (hi : s.issuer = .host) (hl : s.life = .ready p) (hlen : buffer.length = p.ledCount.toNat)
    (hb : validBrt brt = true) : exec (.encode buffer brt) s = sendBits (frameBits s.build.scaleFn buffer brt) s := by
  rw [exec_encode buffer brt hi hl, encodeAndSend, if_neg (not_not_intro hlen), if_neg (not_not_intro hb)]

/-- The load of at least one Color starts a SHIFT, never the bare low-hold (R111). -/
theorem load_frameBits (b : Build) (f : ScaleReading) (brt : F32) (hne : buffer ≠ []) :
    Sequencer.load b (frameBits f buffer brt) = { phase := .shift, txq := frameBits f buffer brt, tck := 0, hold := 0 } := by
  refine (load_eq_ite b _).trans (if_neg fun hnil => hne ?_)
  have hlen := frameBits_length f buffer brt
  rw [hnil, List.length_nil] at hlen
  exact List.eq_nil_of_length_eq_zero (by omega)

/-- ENCODE with nothing against it loads the frame and answers OK. -/
theorem exec_encode_ok (hi : s.issuer = .host) (hl : s.life = .ready p) (hn : p.ledCount ≠ 0#32)
    (hlen : buffer.length = p.ledCount.toNat) (hb : validBrt brt = true) (hp : s.seq.phase = .idle) (ha : s.periphAvail = true) :
    exec (.encode buffer brt) s = .next { s with
      seq := { phase := .shift, txq := frameBits s.build.scaleFn buffer brt, tck := 0, hold := 0 }, rsp := some .ok } := by
  have hne : buffer ≠ [] := by
    rintro rfl
    exact hn (BitVec.eq_of_toNat_eq hlen.symm)
  rw [exec_encode_legal hi hl hlen hb, sendBits_idle _ hp ha, load_frameBits _ _ _ hne]

theorem exec_encode_busy (hi : s.issuer = .host) (hl : s.life = .ready p) (hlen : buffer.length = p.ledCount.toNat)
    (hb : validBrt brt = true) (hp : s.seq.phase ≠ .idle) : exec (.encode buffer brt) s = raise (.hardware .busy) s :=
  (exec_encode_legal hi hl hlen hb).trans (sendBits_busy _ hp)

theorem exec_encode_unavailable (hi : s.issuer = .host) (hl : s.life = .ready p) (hlen : buffer.length = p.ledCount.toNat)
    (hb : validBrt brt = true) (hp : s.seq.phase = .idle) (ha : s.periphAvail = false) :
    exec (.encode buffer brt) s = raise (.hardware .unavailable) s :=
  (exec_encode_legal hi hl hlen hb).trans (sendBits_unavailable _ hp ha)

theorem strip_colors_length (b : Build) (p : Strip) : (p.colors b).length = p.ledCount.toNat := memory_readAll_length ..

end

/-! ## The obligations -/

/-- Settles O16: both checks of ENCODE and both of SEND pass, and a buffer of N >= 1 Colors has bits to shift. -/
theorem encodeLoadsTheFrame : Obligations.EncodeLoadsTheFrame := fun _ _ _ _ => exec_encode_ok

/-- Settles O17: each failing check raises its own error, and those after it are reached only where it passes. -/
theorem encodeReportsTheFirstError : Obligations.EncodeReportsTheFirstError := by
  intro s p buffer brt hi hl
  refine ⟨fun hlen => ?length, fun hlen hb => ?brightness, fun hlen hb hp => ?busy, fun hlen hb hp ha => ?unavailable⟩
  case length => exact (exec_encode_length hi hl hlen).trans (raise_eq _ s)
  case brightness => exact (exec_encode_brightness hi hl hlen hb).trans (raise_eq _ s)
  case busy => exact (exec_encode_busy hi hl hlen hb hp).trans (raise_eq _ s)
  case unavailable => exact (exec_encode_unavailable hi hl hlen hb hp ha).trans (raise_eq _ s)

/-- Settles O18: FLUSH is an ENCODE that a legal strip cannot fail, of N Colors at a legal brightness. -/
theorem flushSendsThePixelBuffer : Obligations.FlushSendsThePixelBuffer := by
  intro s p hi hl hinv hp ha
  obtain ⟨hn, hb, -⟩ := hinv
  exact (exec_flush_eq_encode hi hl).trans (exec_encode_ok hi hl hn (strip_colors_length _ p) hb hp ha)

/-- Settles O19: of ENCODE's errors a legal strip leaves FLUSH only those of SEND. -/
theorem flushFailsOnlyWithHardwareError : Obligations.FlushFailsOnlyWithHardwareError := by
  intro s p hi hl hinv
  have hlen := strip_colors_length s.build p
  have hflush := exec_flush_eq_encode hi hl
  obtain ⟨-, hb, -⟩ := id hinv
  refine ⟨fun hp => ?busy, fun hp ha => ?unavailable, fun hp ha => ?ok⟩
  case busy => exact hflush.trans ((exec_encode_busy hi hl hlen hb hp).trans (raise_eq _ s))
  case unavailable => exact hflush.trans ((exec_encode_unavailable hi hl hlen hb hp ha).trans (raise_eq _ s))
  case ok => exact ⟨_, flushSendsThePixelBuffer s p hi hl hinv hp ha, rfl, rfl⟩

end Sys2Proof.Machine
end

section
/-! What ends a phase: the low-hold on the record before BUSY falls (R112, R119), and the transitions of PHASE (R118), both by what each
instruction and each tick does to the sequencer and to the record of the line. -/
namespace Sys2Proof.Machine

/-! ## The record of the low-hold -/

/-- Low ticks of the low-hold that stand on the record stay on it, with the `k` that follow. -/
theorem lowHold_suffix_append {r h k : Nat} {l : List Bool} (hh : h ≤ r) (hk : k ≤ h)
    (hl : List.replicate (r - h) false <:+ l) :
    List.replicate (r - (h - k)) false <:+ l ++ List.replicate k false := by
  have hsplit : r - (h - k) = (r - h) + k := by omega
  rw [hsplit, List.replicate_add]
  exact (List.suffix_append_inj_of_length_eq rfl).2 ⟨hl, rfl⟩

theorem lowHeld_of_ne_latch {s : State} (h : s.seq.phase ≠ .latch) : s.LowHeld := fun hp => absurd hp h

/-- A load has nothing of the low-hold behind it, whether it begins one or not. -/
theorem lowHeld_of_load {s : State} {bits : List Bool} (h : s.seq = Sequencer.load s.build bits) : s.LowHeld := by
  cases bits with
  | nil => intro _; simp [h]
  | cons v tl => exact lowHeld_of_ne_latch (by simp [h])

theorem load_busy (b : Build) (bits : List Bool) : (Sequencer.load b bits).busy = true := by
  cases bits <;> rfl

/-- What R119 asks of a change from `s` to `t`: the record of the low-hold is kept, and BUSY falls only after RESET_TICKS low ticks. -/
def EndsLow (s t : State) : Prop :=
  t.LowHeld ∧ (s.busy = true → t.busy = false → List.replicate s.build.resetTicks false <:+ t.trace)

/-- In the same PHASE, BUSY is the same and nothing ends: the record is all there is to keep. -/
theorem endsLow_of_phase_eq {s t : State} (hp : t.seq.phase = s.seq.phase) (hlow : t.LowHeld) : EndsLow s t :=
  ⟨hlow, fun hs ht => by rw [busy_iff, ← hp, ← busy_iff, ht] at hs; cases hs⟩

/-- Outside LATCH there is no record to keep. -/
theorem endsLow_of_outside {s t : State} (hp : t.seq.phase = s.seq.phase) (hne : s.seq.phase ≠ .latch) : EndsLow s t :=
  endsLow_of_phase_eq hp (lowHeld_of_ne_latch (hp ▸ hne))

theorem endsLow_of_load {s t : State} {bits : List Bool} (h : t.seq = Sequencer.load t.build bits) : EndsLow s t :=
  ⟨lowHeld_of_load h, fun _ ht => by rw [State.busy, h, load_busy] at ht; cases ht⟩

/-- The low-hold run to its end leaves RESET_TICKS low ticks on the record. -/
theorem endsLow_of_held {s t : State} (hle : s.seq.hold ≤ s.build.resetTicks) (hlow : s.LowHeld) (hp : s.seq.phase = .latch)
    (hidle : t.seq.phase = .idle) (ht : t.trace = s.trace ++ List.replicate s.seq.hold false) : EndsLow s t := by
  refine ⟨lowHeld_of_ne_latch (by simp [hidle]), fun _ _ => ?_⟩
  simpa [ht] using lowHold_suffix_append hle le_rfl (hlow hp)

/-- In LATCH a tick adds to the record the one low level by which HOLD falls. -/
theorem tick_trace_latch {s : State} (hp : s.seq.phase = .latch) : (tick s).trace = s.trace ++ List.replicate 1 false := by
  rw [tick_trace, dout_of_ne_shift (by simp [hp]), List.replicate_one]

theorem tick_endsLow {s : State} (hseq : s.seq.Inv s.build) (hlow : s.LowHeld) : EndsLow s (tick s) := by
  have ht := tick_seq s
  obtain ⟨hp, e⟩ | ⟨hp, -, e⟩ | ⟨-, -, -, e⟩ | ⟨hp, -, -, e⟩ | ⟨hp, hgt, e⟩ | ⟨hp, hle, e⟩ :=
    sequencer_tick_cases s.build s.seq <;> rw [e] at ht
  · exact endsLow_of_outside (by rw [ht]) (by simp [hp])
  · exact endsLow_of_outside (by rw [ht]) (by simp [hp])
  · exact endsLow_of_load (bits := []) ht
  · exact endsLow_of_outside (by rw [ht]) (by simp [hp])
  · obtain ⟨-, -, hpos, hmax⟩ := inv_latch hseq hp
    refine endsLow_of_phase_eq (by rw [ht]) fun _ => ?_
    rw [ht, tick_trace_latch hp]
    exact lowHold_suffix_append hmax hpos (hlow hp)
  · obtain ⟨-, -, hpos, hmax⟩ := inv_latch hseq hp
    have hone : s.seq.hold = 1 := by omega
    exact endsLow_of_held hmax hlow hp (by rw [ht]) (by rw [hone, tick_trace_latch hp])

/-- An instruction leaves the sequencer alone, loads it, or runs the whole low-hold. -/
theorem Did.endsLow {i : Instr} {s t : State} (h : Did i s t) (hseq : s.seq.Inv s.build) (hlow : s.LowHeld) : EndsLow s t := by
  cases h with
  | raised e hf ht => rw [ht]; exact endsLow_of_phase_eq rfl hlow
  | responded c hf ht => rw [ht]; exact endsLow_of_phase_eq rfl hlow
  | constructed p hf hl hn hb hp ht => rw [ht]; exact endsLow_of_phase_eq rfl hlow
  | wrote p k c hf hl hk ht => rw [ht]; exact endsLow_of_phase_eq rfl hlow
  | filled p c hf hl ht => rw [ht]; exact endsLow_of_phase_eq rfl hlow
  | sent bits hi hp ht => rw [ht]; exact endsLow_of_load (bits := bits) rfl
  | emitted bits rest hf hb hp hq ht => rw [ht]; exact endsLow_of_load (bits := rest) rfl
  | held hi hp ht =>
    obtain ⟨-, -, -, hmax⟩ := inv_latch hseq hp
    rw [ht]; exact endsLow_of_held hmax hlow hp rfl rfl

theorem step_endsLow {s t : State} (hs : s.Inv) (hlow : s.LowHeld) (hn : s.noReset) (h : step s = .next t) : EndsLow s t := by
  obtain ⟨-, hseq, -⟩ := hs
  cases step_did h with
  | command i rest who bytes hsch hd hx => exact (exec_did hx).endsLow hseq hlow
  | wire i rest u hsch hw hx => exact (exec_did hx).endsLow hseq hlow
  | ticked rest hr ht => rw [ht]; exact tick_endsLow (s := { s with schedule := rest }) hseq hlow
  | spent rest available hr ht => rw [ht]; exact endsLow_of_phase_eq rfl hlow
  | reset rest hsch ht => exact absurd hn (not_noReset hsch)

/-- Settles O51: of each low-hold the record shows what HOLD has counted, so all of it when the hold ends. -/
theorem busyEndsAfterTheLowHold : Obligations.BusyEndsAfterTheLowHold := fun _ _ => step_endsLow

/-! ## The transitions of PHASE -/

/-- SHIFT ends with the load of the low-hold, LATCH in IDLE (R118). -/
def PhaseRanOut (s t : State) : Prop :=
  (s.seq.phase = .shift ∧ t.seq = Sequencer.load s.build []) ∨ (s.seq.phase = .latch ∧ t.seq = .idle)

/-- IDLE ends with a load that answers OK (R111). -/
def PhaseLoaded (s t : State) : Prop :=
  s.seq.phase = .idle ∧ t.rsp = some .ok ∧ ∃ bits, t.seq = Sequencer.load s.build bits

/-- Symbols that leave SHIFT were the last of the frame. -/
theorem ranOut_of_load {s t : State} {bits : List Bool} (hp : s.seq.phase = .shift) (ht : t.seq = Sequencer.load s.build bits)
    (hne : s.seq.phase ≠ t.seq.phase) : PhaseRanOut s t := by
  cases bits with
  | nil => exact .inl ⟨hp, ht⟩
  | cons v tl => exact absurd (by rw [hp, ht, load_cons]) hne

theorem tick_ranOut {s : State} (hseq : s.seq.Inv s.build) (hne : s.seq.phase ≠ (tick s).seq.phase) : PhaseRanOut s (tick s) := by
  have ht := tick_seq s
  obtain ⟨-, e⟩ | ⟨-, -, e⟩ | ⟨hp, -, -, e⟩ | ⟨-, -, -, e⟩ | ⟨-, -, e⟩ | ⟨hp, -, e⟩ :=
    sequencer_tick_cases s.build s.seq <;> rw [e] at ht
  · exact absurd (by rw [ht]) hne
  · exact absurd (by rw [ht]) hne
  · exact .inl ⟨hp, ht⟩
  · exact absurd (by rw [ht]) hne
  · exact absurd (by rw [ht]) hne
  · obtain ⟨hq, hk, -⟩ := inv_latch hseq hp
    refine .inr ⟨hp, ht.trans ?_⟩
    rw [hq, hk]; rfl

/-- An instruction that changes PHASE is a send from IDLE, or runs the phase out. -/
theorem Did.phaseLeft {i : Instr} {s t : State} (h : Did i s t) (hne : s.seq.phase ≠ t.seq.phase) :
    (Sends i ∧ PhaseLoaded s t) ∨ PhaseRanOut s t := by
  cases h with
  | raised e hf ht => exact absurd (by rw [ht]) hne
  | responded c hf ht => exact absurd (by rw [ht]) hne
  | constructed p hf hl hn hb hp ht => exact absurd (by rw [ht]) hne
  | wrote p k c hf hl hk ht => exact absurd (by rw [ht]) hne
  | filled p c hf hl ht => exact absurd (by rw [ht]) hne
  | sent bits hi hp ht => exact .inl ⟨hi, hp, by rw [ht], bits, by rw [ht]⟩
  | emitted bits rest hf hb hp hq ht => exact .inr (ranOut_of_load (bits := rest) hp (by rw [ht]) hne)
  | held hi hp ht => exact .inr (.inr ⟨hp, by rw [ht]⟩)

/-- Only a send on `cmd` takes a step out of IDLE; the other changes of PHASE run a phase out. -/
theorem step_phaseLeft {s t : State} (hs : s.Inv) (hn : s.noReset) (h : step s = .next t) (hne : s.seq.phase ≠ t.seq.phase) :
    (PhaseLoaded s t ∧ ∃ who bytes rest i, s.schedule = .command who bytes :: rest ∧ decodeCommand bytes = .ok i ∧ Sends i) ∨
    PhaseRanOut s t := by
  obtain ⟨-, hseq, -⟩ := hs
  cases step_did h with
  | command i rest who bytes hsch hd hx =>
    exact ((exec_did hx).phaseLeft hne).imp_left fun ⟨hi, hl⟩ => ⟨hl, who, bytes, rest, i, hsch, hd, hi⟩
  | wire i rest u hsch hw hx =>
    exact .inr (((exec_did hx).phaseLeft hne).resolve_left fun ⟨hi, _⟩ => wireInstr_format hw (sends_format hi))
  | ticked rest hr ht => rw [ht] at hne ⊢; exact .inr (tick_ranOut (s := { s with schedule := rest }) hseq hne)
  | spent rest available hr ht => exact absurd (by rw [ht]) hne
  | reset rest hsch ht => exact absurd hn (not_noReset hsch)

/-- With bits a load begins a SHIFT, with none the low-hold (R111). -/
theorem load_phase (b : Build) (bits : List Bool) :
    ((Sequencer.load b bits).phase = .shift ∧ (Sequencer.load b bits).txq ≠ []) ∨
    ((Sequencer.load b bits).phase = .latch ∧ (Sequencer.load b bits).txq = []) := by
  cases bits with
  | nil => exact .inr ⟨rfl, rfl⟩
  | cons v tl => exact .inl ⟨rfl, List.cons_ne_nil v tl⟩

/-- Settles O48: a send loads from IDLE, and each other phase runs out into the next. -/
theorem phaseTransitions : Obligations.PhaseTransitions := by
  intro s t hs hn h hne
  refine (step_phaseLeft hs hn h hne).imp_left ?_
  rintro ⟨⟨hidle, hok, bits, hload⟩, hcommand⟩
  exact ⟨hidle, hok, hcommand, hload ▸ load_phase s.build bits⟩

end Sys2Proof.Machine
end

section
/-! The transmitter (R111, R114): SEND's outcomes, one tick in each phase, and which wire patterns are refused. -/
namespace Sys2Proof.Machine

/-! ## SEND -/

theorem exec_send {s : State} {p : Strip} (bits : List Bool) (hi : s.issuer = .frontEnd) (hl : s.life = .ready p) :
    exec (.send bits) s = sendBits bits s :=
  (fromFrontEnd_of_frontEnd _ hi).trans (whenReady_of_ready _ hl)

/-- Settles O26: both checks pass, and the load begins a SHIFT or the low-hold. -/
theorem sendLoadsTheSequencer : Obligations.SendLoadsTheSequencer := by
  intro s p bits hi hl hp ha
  rw [exec_send bits hi hl, sendBits_idle bits hp ha, load_eq_ite]
  exact ⟨fun hne => by rw [if_neg hne], fun hnil => by rw [if_pos hnil]⟩

/-- Settles O27: UNAVAILABLE is reached only in IDLE. -/
theorem sendReportsBusyThenUnavailable : Obligations.SendReportsBusyThenUnavailable := by
  intro s p bits hi hl
  rw [exec_send bits hi hl]
  exact ⟨fun hp => sendBits_busy bits hp, fun hp ha => sendBits_unavailable bits hp ha⟩

/-! ## One tick -/

section
variable {b : Build} {q : Sequencer}

theorem sequencer_tick_idle (hp : q.phase = .idle) : q.tick b = q := by
  simp [Sequencer.tick, hp]

theorem sequencer_tick_within (hp : q.phase = .shift) (ht : q.tck < b.tb - 1) : q.tick b = { q with tck := q.tck + 1 } := by
  simp [Sequencer.tick, hp, ht]

theorem sequencer_tick_nextSymbol {v w : Bool} {tl : List Bool} (hp : q.phase = .shift) (ht : b.tb - 1 ≤ q.tck)
    (hq : q.txq = v :: w :: tl) : q.tick b = { q with txq := w :: tl, tck := 0 } := by
  simp [Sequencer.tick, hp, hq, ht.not_gt]

theorem sequencer_tick_lastSymbol {v : Bool} (hp : q.phase = .shift) (ht : b.tb - 1 ≤ q.tck) (hq : q.txq = [v]) :
    q.tick b = { phase := .latch, txq := [], tck := 0, hold := b.resetTicks } := by
  simp [Sequencer.tick, hp, hq, ht.not_gt]

theorem sequencer_tick_lowHold (hp : q.phase = .latch) (hh : 1 < q.hold) : q.tick b = { q with hold := q.hold - 1 } := by
  simp [Sequencer.tick, hp, hh]

theorem sequencer_tick_lowHoldEnd (hp : q.phase = .latch) (hh : q.hold ≤ 1) : q.tick b = { q with phase := .idle, hold := 0 } := by
  simp [Sequencer.tick, hp, hh.not_gt]

end

/-- A step with nothing scheduled, by its sequencer and its level. -/
theorem step_silent_eq {s : State} {q : Sequencer} {v : Bool} (hs : s.schedule = []) (hq : s.seq.tick s.build = q) (hv : s.dout = v) :
    step s = .next { s with seq := q, trace := s.trace ++ [v] } := by
  rw [step_silent hs, tick, hq, hv]

/-- Settles O28: with nothing scheduled a step is a tick, and the line is low outside SHIFT. -/
theorem tickMovesTheSequencerOnly : Obligations.TickMovesTheSequencerOnly := by
  intro s hs
  have low : s.seq.phase ≠ .shift → s.dout = false := dout_of_ne_shift
  refine ⟨fun hp => ?idle, fun hp ht => ?within, fun v w tl hp ht hq => ?nextSymbol, fun v hp ht hq => ?lastSymbol,
    fun hp hh => ?lowHold, fun hp hh => ?lowHoldEnd⟩
  case idle => exact step_silent_eq hs (sequencer_tick_idle hp) (low (by simp [hp]))
  case within => exact step_silent_eq hs (sequencer_tick_within hp ht) rfl
  case nextSymbol => exact step_silent_eq hs (sequencer_tick_nextSymbol hp ht hq) rfl
  case lastSymbol => exact step_silent_eq hs (sequencer_tick_lastSymbol hp ht hq) rfl
  case lowHold => exact step_silent_eq hs (sequencer_tick_lowHold hp hh) (low (by simp [hp]))
  case lowHoldEnd => exact step_silent_eq hs (sequencer_tick_lowHoldEnd hp hh) (low (by simp [hp]))

/-! ## Patterns off the position -/

theorem emitBits_refused {bits : List Bool} {s : State} (h : s.seq.phase = .shift → ¬ bits <+: s.seq.txq) :
    emitBits bits s = .refused .offPattern :=
  if_neg fun ⟨hp, hb⟩ => h hp (List.isPrefixOf_iff_prefix.1 hb)

/-- A one-bit pattern is refused where its bit is not the head. -/
theorem emitBits_singleton_refused {v : Bool} {s : State} (h : s.seq.txq.head? ≠ some v) :
    emitBits [v] s = .refused .offPattern :=
  emitBits_refused fun _ ⟨tl, hq⟩ => h (by rw [← hq]; rfl)

/-- Settles O38: SYM0, SYM1 and WORD24 run in SHIFT, where TXQ begins with their bits, and RESET runs in LATCH. -/
theorem patternsOffPositionAreRefused : Obligations.PatternsOffPositionAreRefused := by
  intro s
  refine ⟨fun hp w => ?outsideShift, fun hp => if_neg hp, emitBits_singleton_refused, emitBits_singleton_refused, fun w hw => ?otherWord⟩
  case outsideShift =>
    have off : ∀ bits, emitBits bits s = .refused .offPattern := fun bits => emitBits_refused fun hs => absurd hs hp
    exact ⟨off _, off _, off _⟩
  case otherWord =>
    refine emitBits_refused fun _ ⟨tl, hq⟩ => hw ?_
    rw [← hq, List.take_left' (bits24_length w)]

end Sys2Proof.Machine
end

section
/-! Ticks in a row (R112, R114, R115): through a symbol, the symbols of a bit sequence and the low-hold, the state after each and the
levels it put on the line; with them the patterns run at once (log 11) and the waveform of R112. -/
namespace Sys2Proof.Machine

section
variable {s : State}

/-! ## The levels of a run -/

theorem levels_getElem? {n j : Nat} (h : j < n) : (levels n s)[j]? = some (ticks j s).dout := by
  induction n generalizing s j with
  | zero => omega
  | succ n ih =>
    cases j with
    | zero => rfl
    | succ j => exact ih (by omega)

/-- The levels of a run are those that DOUT has tick by tick. -/
theorem levels_eq_of_dout {n : Nat} {l : List Bool} (hlen : l.length = n) (h : ∀ j, j < n → l[j]? = some (ticks j s).dout) :
    levels n s = l := by
  refine List.ext_getElem? fun j => ?_
  by_cases hj : j < n
  · rw [levels_getElem? hj, h j hj]
  · rw [List.getElem?_eq_none (by simpa using hj), List.getElem?_eq_none (by omega)]

/-- A run outside SHIFT puts low levels on the line. -/
theorem levels_eq_low {n : Nat} (h : ∀ j, j < n → (ticks j s).seq.phase ≠ .shift) : levels n s = List.replicate n false :=
  levels_eq_of_dout List.length_replicate fun j hj => by
    rw [dout_of_ne_shift (h j hj), List.getElem?_replicate, if_pos hj]

/-- `s` with the sequencer in `q` and the levels `l` on the record: all that a run of ticks does (R114). -/
def State.ran (q : Sequencer) (l : List Bool) (s : State) : State := { s with seq := q, trace := s.trace ++ l }

@[simp] theorem ran_build (q : Sequencer) (l : List Bool) : (s.ran q l).build = s.build := rfl
@[simp] theorem ran_seq (q : Sequencer) (l : List Bool) : (s.ran q l).seq = q := rfl

@[simp] theorem ran_ran (p q : Sequencer) (l m : List Bool) : (s.ran p l).ran q m = s.ran q (l ++ m) := by
  simp [State.ran]

@[simp] theorem ran_seq_nil : s.ran s.seq [] = s := by simp [State.ran]

theorem ticks_eq_ran {n : Nat} {q : Sequencer} {l : List Bool} (hq : (ticks n s).seq = q) (hl : levels n s = l) :
    ticks n s = s.ran q l := by
  rw [ticks_eq, hq, ticks_trace, hl]; rfl

/-- The levels of a run are what it adds to the record. -/
theorem levels_of_ticks_eq_ran {n : Nat} {q : Sequencer} {l : List Bool} (h : ticks n s = s.ran q l) : levels n s = l :=
  List.append_cancel_left ((ticks_trace n s).symm.trans (congrArg State.trace h))

/-! ## Through a symbol -/

/-- Ticks short of the symbol's end only count TCK on. -/
theorem ticks_within_symbol {q : List Bool} {h k n : Nat} (hs : s.seq = ⟨.shift, q, k, h⟩) (hn : k + n < s.build.tb) :
    (ticks n s).seq = ⟨.shift, q, k + n, h⟩ := by
  induction n generalizing s k with
  | zero => exact hs
  | succ n ih =>
    have hnotLast : s.seq.tck < s.build.tb - 1 := by rw [hs]; show k < _; omega
    have htick : (tick s).seq = ⟨.shift, q, k + 1, h⟩ := by
      rw [tick_seq, sequencer_tick_within (by rw [hs]) hnotLast, hs]
    rw [ticks_succ, ih htick (by rw [tick_build]; omega)]
    congr 1
    omega

/-- The last tick of a symbol leaves the bits after it as R111 loads them. -/
theorem tick_seq_symbolEnd {v : Bool} {tl : List Bool} {k : Nat} (hs : s.seq = ⟨.shift, v :: tl, k, 0⟩) (hk : k + 1 = s.build.tb) :
    (tick s).seq = Sequencer.load s.build tl := by
  have hlast : s.build.tb - 1 ≤ s.seq.tck := by rw [hs]; show _ ≤ k; omega
  cases tl with
  | nil => rw [tick_seq, sequencer_tick_lastSymbol (by rw [hs]) hlast (by rw [hs]), load_nil]
  | cons w tl => rw [tick_seq, sequencer_tick_nextSymbol (by rw [hs]) hlast (by rw [hs]), hs, load_cons]

/-- From its tick `k` to its end a symbol puts the rest of its levels on the line. -/
theorem levels_symbol {v : Bool} {tl : List Bool} {k h : Nat} (hs : s.seq = ⟨.shift, v :: tl, k, h⟩) :
    levels (s.build.tb - k) s = (sym s.build v).drop k := by
  refine levels_eq_of_dout (by simp) fun j hj => ?_
  have hseq := ticks_within_symbol (n := j) hs (by omega)
  rw [List.getElem?_drop, sym_getElem? (by omega), dout_of_shift (by rw [hseq]) (by rw [hseq]), hseq, ticks_build]

/-- A symbol run to its end, from its tick `k` (R110, R114). -/
theorem ticks_symbol {v : Bool} {tl : List Bool} {k : Nat} (hs : s.seq = ⟨.shift, v :: tl, k, 0⟩) (hk : k < s.build.tb) :
    ticks (s.build.tb - k) s = s.ran (Sequencer.load s.build tl) ((sym s.build v).drop k) := by
  refine ticks_eq_ran ?_ (levels_symbol hs)
  obtain ⟨n, hn⟩ : ∃ n, s.build.tb = k + n + 1 := ⟨s.build.tb - k - 1, by omega⟩
  have hlast := ticks_within_symbol (n := n) hs (by omega)
  rw [show s.build.tb - k = n + 1 by omega, ticks_add]
  exact (tick_seq_symbolEnd hlast (by rw [ticks_build]; omega)).trans (by rw [ticks_build])

/-! ## Through a bit sequence -/

/-- The symbols of bits at a symbol boundary, one after the other with no gap (R112). -/
theorem ticks_load {bits rest : List Bool} (htb : 0 < s.build.tb) (hs : s.seq = Sequencer.load s.build (bits ++ rest)) :
    ticks (bits.length * s.build.tb) s = s.ran (Sequencer.load s.build rest) (symbols s.build bits) := by
  induction bits generalizing s with
  | nil =>
    rw [List.nil_append] at hs
    rw [List.length_nil, Nat.zero_mul, ticks_zero, symbols_nil, ← hs, ran_seq_nil]
  | cons v bits ih =>
    have hsymbol : ticks s.build.tb s = s.ran (Sequencer.load s.build (bits ++ rest)) (sym s.build v) :=
      ticks_symbol (k := 0) hs htb
    calc ticks ((v :: bits).length * s.build.tb) s
        = ticks (bits.length * s.build.tb) (ticks s.build.tb s) := by
          rw [← ticks_add, List.length_cons, Nat.succ_mul, Nat.add_comm]
      _ = ticks (bits.length * s.build.tb) (s.ran (Sequencer.load s.build (bits ++ rest)) (sym s.build v)) := by
          rw [hsymbol]
      _ = (s.ran (Sequencer.load s.build (bits ++ rest)) (sym s.build v)).ran (Sequencer.load s.build rest)
            (symbols s.build bits) := ih (s := s.ran _ _) htb rfl
      _ = s.ran (Sequencer.load s.build rest) (symbols s.build (v :: bits)) := by rw [ran_ran, symbols_cons]

/-- The symbols of the first bits of TXQ, from where TCK stands in the first (R115). -/
theorem ticks_bits {bits rest : List Bool} {k : Nat} (hne : bits ≠ []) (hs : s.seq = ⟨.shift, bits ++ rest, k, 0⟩)
    (hk : k < s.build.tb) :
    ticks (bits.length * s.build.tb - k) s = s.ran (Sequencer.load s.build rest) ((symbols s.build bits).drop k) := by
  cases bits with
  | nil => exact absurd rfl hne
  | cons v bits =>
    have hlength : (v :: bits).length * s.build.tb - k = (s.build.tb - k) + bits.length * s.build.tb := by
      rw [List.length_cons, Nat.succ_mul, Nat.add_comm, Nat.sub_add_comm hk.le]
    have hlevels : (symbols s.build (v :: bits)).drop k = (sym s.build v).drop k ++ symbols s.build bits := by
      rw [symbols_cons, List.drop_append_of_le_length (by rw [sym_length]; exact hk.le)]
    rw [hlength, ticks_add, ticks_symbol hs hk, hlevels, ← ran_ran]
    exact ticks_load (s := s.ran _ _) (Nat.zero_lt_of_lt hk) rfl

/-! ## Through the low-hold, and after it -/

theorem ticks_within_lowHold {h j : Nat} (hs : s.seq = ⟨.latch, [], 0, h⟩) (hj : j < h) :
    (ticks j s).seq = ⟨.latch, [], 0, h - j⟩ := by
  induction j generalizing s h with
  | zero => exact hs
  | succ j ih =>
    have htick : (tick s).seq = ⟨.latch, [], 0, h - 1⟩ := by
      rw [tick_seq, sequencer_tick_lowHold (by rw [hs]) (by rw [hs]; show 1 < h; omega), hs]
    rw [ticks_succ, ih htick (by omega)]
    congr 1
    omega

/-- The low-hold run to its end: HOLD low ticks, then IDLE (R112). -/
theorem ticks_lowHold {h : Nat} (hs : s.seq = ⟨.latch, [], 0, h⟩) (hh : 1 ≤ h) :
    ticks h s = s.ran .idle (List.replicate h false) := by
  refine ticks_eq_ran ?_ (levels_eq_low fun j hj => by simp [ticks_within_lowHold hs hj])
  obtain ⟨n, rfl⟩ := Nat.exists_eq_add_of_le' hh
  have hlast := ticks_within_lowHold hs (Nat.lt_succ_self n)
  rw [ticks_add]
  show (tick (ticks n s)).seq = .idle
  rw [tick_seq, sequencer_tick_lowHoldEnd (by rw [hlast]) (by rw [hlast]; show n + 1 - n ≤ 1; omega), hlast]
  rfl

theorem ticks_seq_idle (n : Nat) (hs : s.seq = .idle) : (ticks n s).seq = .idle := by
  induction n generalizing s with
  | zero => exact hs
  | succ n ih => exact ih (by rw [tick_seq, hs]; rfl)

theorem ticks_idle (n : Nat) (hs : s.seq = .idle) : ticks n s = s.ran .idle (List.replicate n false) :=
  ticks_eq_ran (ticks_seq_idle n hs) (levels_eq_low fun j _ => by simp [ticks_seq_idle j hs])

end

/-! ## Wire patterns -/

theorem emitBits_ticks {bits : List Bool} {s t : State} (hseq : s.seq.Inv s.build) (hne : bits ≠ [])
    (h : emitBits bits s = .next t) : t = ticks (bits.length * s.build.tb - s.seq.tck) s := by
  obtain ⟨rest, hp, hq, ht⟩ := emitBits_next h
  obtain ⟨-, hk, hh⟩ := inv_shift hseq hp
  have hs : s.seq = ⟨.shift, bits ++ rest, s.seq.tck, 0⟩ := by rw [← hp, ← hq, ← hh]
  exact ht.trans (ticks_bits hne hs hk).symm

theorem emitLowHold_ticks {s t : State} (hseq : s.seq.Inv s.build) (h : emitLowHold s = .next t) : t = ticks s.seq.hold s := by
  obtain ⟨hp, ht⟩ := emitLowHold_next h
  obtain ⟨hq, hk, hpos, -⟩ := inv_latch hseq hp
  have hs : s.seq = ⟨.latch, [], 0, s.seq.hold⟩ := by rw [← hp, ← hq, ← hk]
  exact ht.trans (ticks_lowHold hs hpos).symm

/-- A one-bit pattern is the ticks left of its symbol. -/
theorem emitBits_singleton_ticks {v : Bool} {s t : State} (hseq : s.seq.Inv s.build) (h : emitBits [v] s = .next t) :
    t = ticks (s.build.tb - s.seq.tck) s := by
  simpa using emitBits_ticks hseq (List.cons_ne_nil v []) h

/-- Settles O39: a pattern that runs stands at the sequencer's position, so the ticks left of it run the same symbols or low-hold. -/
theorem patternsAreTheirTicks : Obligations.PatternsAreTheirTicks := by
  rintro s t ⟨-, hseq, -⟩
  refine ⟨emitBits_singleton_ticks hseq, emitBits_singleton_ticks hseq, fun w h => ?_, emitLowHold_ticks hseq⟩
  have hne : bits24 w ≠ [] := List.ne_nil_of_length_pos (by simp)
  simpa using emitBits_ticks hseq hne h

/-! ## The waveform -/

section
variable {s : State} {bits : List Bool}

theorem ticks_allBits (htb : 0 < s.build.tb) (hs : s.seq = Sequencer.load s.build bits) :
    ticks (bits.length * s.build.tb) s = s.ran (Sequencer.load s.build []) (symbols s.build bits) :=
  ticks_load htb (by rw [List.append_nil, hs])

/-- A whole transmission and `m` ticks more: the waveform of R112, and the line low after it. -/
theorem ticks_frame (hlegal : s.build.legal = true) (hs : s.seq = Sequencer.load s.build bits) (m : Nat) :
    ticks (bits.length * s.build.tb + s.build.resetTicks + m) s =
      s.ran .idle (frameWave s.build bits ++ List.replicate m false) := by
  obtain ⟨-, -, -, hreset, htb⟩ := build_legal hlegal
  calc ticks (bits.length * s.build.tb + s.build.resetTicks + m) s
      = ticks m (ticks s.build.resetTicks (ticks (bits.length * s.build.tb) s)) := by rw [ticks_add, ticks_add]
    _ = ticks m (ticks s.build.resetTicks (s.ran (Sequencer.load s.build []) (symbols s.build bits))) := by
        rw [ticks_allBits (by omega) hs]
    _ = ticks m (s.ran .idle (frameWave s.build bits)) := by
        rw [ticks_lowHold (h := s.build.resetTicks) rfl hreset, ran_ran, frameWave]
    _ = s.ran .idle (frameWave s.build bits ++ List.replicate m false) := by rw [ticks_idle m rfl, ran_ran]

/-- In tick `k` of bit `p` the sequencer is at that bit with TCK = `k` (R115). -/
theorem ticks_seq_shift {p k : Nat} (hs : s.seq = Sequencer.load s.build bits) (hp : p < bits.length) (hk : k < s.build.tb) :
    (ticks (p * s.build.tb + k) s).seq = ⟨.shift, bits.drop p, k, 0⟩ := by
  have hbits : (bits.take p).length * s.build.tb = p * s.build.tb := by rw [List.length_take_of_le hp.le]
  have hat : ticks (p * s.build.tb) s = s.ran (Sequencer.load s.build (bits.drop p)) (symbols s.build (bits.take p)) :=
    hbits ▸ ticks_load (by omega) (by rw [List.take_append_drop, hs])
  have hload : Sequencer.load s.build (bits.drop p) = ⟨.shift, bits.drop p, 0, 0⟩ :=
    (load_eq_ite _ _).trans (if_neg (by simpa using hp))
  rw [ticks_add, hat, ticks_within_symbol (k := 0) hload (by rw [ran_build]; omega), Nat.zero_add]

/-- In tick `j` of the low-hold HOLD has `j` fewer to go (R115). -/
theorem ticks_seq_latch {j : Nat} (htb : 0 < s.build.tb) (hs : s.seq = Sequencer.load s.build bits) (hj : j < s.build.resetTicks) :
    (ticks (bits.length * s.build.tb + j) s).seq = ⟨.latch, [], 0, s.build.resetTicks - j⟩ := by
  rw [ticks_add, ticks_allBits htb hs, ticks_within_lowHold rfl hj]

/-- In tick `k` of bit `p` the line is high for the bit's high length (R110, R112). -/
theorem ticks_dout_shift {p k : Nat} {v : Bool} (hs : s.seq = Sequencer.load s.build bits) (hv : bits[p]? = some v)
    (hk : k < s.build.tb) : (ticks (p * s.build.tb + k) s).dout = decide (k < highLen s.build v) := by
  obtain ⟨hp, rfl⟩ := List.getElem?_eq_some_iff.1 hv
  have hseq := ticks_seq_shift hs hp hk
  rw [dout_of_shift (by rw [hseq]) (by rw [hseq, List.drop_eq_getElem_cons hp]), hseq, ticks_build]

end

/-- Settles O30: the symbols, the low-hold and the idle ticks one after the other, and the position in each. -/
theorem machineEmitsTheWaveform : Obligations.MachineEmitsTheWaveform := by
  intro s bits hlegal hload
  have hs : s.seq = Sequencer.load s.build bits := hload.trans (load_eq_ite _ _).symm
  obtain ⟨-, -, -, -, htb⟩ := build_legal hlegal
  refine ⟨fun m => ?waveform, fun p k v hv hk => ?level, fun n => ticks_trace n s, fun p k hp hk => ticks_seq_shift hs hp hk,
    fun j hj => ticks_seq_latch (by omega) hs hj, ?idle⟩
  case waveform => exact levels_of_ticks_eq_ran (ticks_frame hlegal hs m)
  case level =>
    rw [ticks_dout_shift hs hv hk, decide_eq_true_iff]
    cases v <;> rfl
  case idle => exact congrArg State.seq (ticks_frame hlegal hs 0)

end Sys2Proof.Machine
end

section
/-! How long BUSY lasts (R116): each tick is one of the ticks left (R115), and BUSY is 1 while any is. -/
namespace Sys2Proof.Machine

section
variable {s : State}

theorem ticksLeft_idle (hp : s.seq.phase = .idle) : s.ticksLeft = 0 := by simp [State.ticksLeft, hp]

theorem ticksLeft_shift (hp : s.seq.phase = .shift) :
    s.ticksLeft = s.seq.txq.length * s.build.tb - s.seq.tck + s.build.resetTicks := by simp [State.ticksLeft, hp]

theorem ticksLeft_latch (hp : s.seq.phase = .latch) : s.ticksLeft = s.seq.hold := by simp [State.ticksLeft, hp]

/-- A load has the symbols of its bits and the low-hold to go (R116). -/
theorem ticksLeft_load {bits : List Bool} (hs : s.seq = Sequencer.load s.build bits) :
    s.ticksLeft = bits.length * s.build.tb + s.build.resetTicks := by
  cases bits with
  | nil => rw [ticksLeft_latch (by rw [hs, load_nil]), hs]; simp
  | cons v tl => rw [ticksLeft_shift (by rw [hs, load_cons]), hs]; simp

/-- BUSY is 1 while ticks are left. -/
theorem busy_iff_ticksLeft_pos (hreset : 1 ≤ s.build.resetTicks) (hseq : s.seq.Inv s.build) : s.busy = true ↔ 0 < s.ticksLeft := by
  rw [busy_iff]
  cases hp : s.seq.phase with
  | idle => simp [ticksLeft_idle hp]
  | shift => exact iff_of_true (by simp) (by rw [ticksLeft_shift hp]; omega)
  | latch =>
    obtain ⟨-, -, hpos, -⟩ := inv_latch hseq hp
    exact iff_of_true (by simp) (by rw [ticksLeft_latch hp]; exact hpos)

/-- In SHIFT a tick is one of the ticks left, of a symbol under way or the last one of it. -/
theorem tick_ticksLeft_shift (hseq : s.seq.Inv s.build) (hp : s.seq.phase = .shift) : (tick s).ticksLeft = s.ticksLeft - 1 := by
  obtain ⟨hne, hk, hh⟩ := inv_shift hseq hp
  obtain ⟨v, tl, hq⟩ := List.exists_cons_of_ne_nil hne
  have hleft : s.ticksLeft = tl.length * s.build.tb + s.build.tb - s.seq.tck + s.build.resetTicks := by
    rw [ticksLeft_shift hp, hq, List.length_cons, Nat.succ_mul]
  by_cases hend : s.seq.tck + 1 = s.build.tb
  · have hs : s.seq = ⟨.shift, v :: tl, s.seq.tck, 0⟩ := by rw [← hp, ← hq, ← hh]
    rw [ticksLeft_load (tick_seq_symbolEnd hs hend), hleft, tick_build]
    omega
  · have htick : (tick s).seq = { s.seq with tck := s.seq.tck + 1 } := sequencer_tick_within hp (by omega)
    rw [ticksLeft_shift (by rw [htick, hp]), hleft, htick, tick_build]
    dsimp only
    rw [hq, List.length_cons, Nat.succ_mul]
    omega

theorem tick_ticksLeft_latch (hp : s.seq.phase = .latch) : (tick s).ticksLeft = s.ticksLeft - 1 := by
  rw [ticksLeft_latch hp]
  by_cases hh : 1 < s.seq.hold
  · have htick : (tick s).seq = { s.seq with hold := s.seq.hold - 1 } := sequencer_tick_lowHold hp hh
    rw [ticksLeft_latch (by rw [htick, hp]), htick]
  · have htick : (tick s).seq = { s.seq with phase := .idle, hold := 0 } := sequencer_tick_lowHoldEnd hp (by omega)
    rw [ticksLeft_idle (by rw [htick])]
    omega

/-- Every tick is one of the ticks left, as long as there is one. -/
theorem tick_ticksLeft (hseq : s.seq.Inv s.build) : (tick s).ticksLeft = s.ticksLeft - 1 := by
  cases hp : s.seq.phase with
  | idle => rw [ticksLeft_idle hp, ticksLeft_idle (by rw [tick_seq, sequencer_tick_idle hp, hp])]
  | shift => exact tick_ticksLeft_shift hseq hp
  | latch => exact tick_ticksLeft_latch hp

theorem ticks_inv (hlegal : s.build.legal = true) (hseq : s.seq.Inv s.build) (n : Nat) :
    (ticks n s).seq.Inv s.build := by
  induction n generalizing s with
  | zero => exact hseq
  | succ n ih => exact ih (s := tick s) hlegal (tick_inv hlegal hseq)

theorem ticks_ticksLeft (hlegal : s.build.legal = true) (hseq : s.seq.Inv s.build) (n : Nat) :
    (ticks n s).ticksLeft = s.ticksLeft - n := by
  induction n generalizing s with
  | zero => rfl
  | succ n ih => rw [ticks_succ, ih (s := tick s) hlegal (tick_inv hlegal hseq), tick_ticksLeft hseq, Nat.sub_sub, Nat.add_comm]

end

/-- Settles O31: a load has M x TB + RESET_TICKS ticks left, and BUSY is 1 while any is. -/
theorem busyLastsTheFrameAndTheLowHold : Obligations.BusyLastsTheFrameAndTheLowHold := by
  intro s bits n hlegal hload
  have hs : s.seq = Sequencer.load s.build bits := hload.trans (load_eq_ite _ _).symm
  obtain ⟨-, -, -, hreset, htb⟩ := build_legal hlegal
  have hseq : s.seq.Inv s.build := hs ▸ load_inv hreset (by omega) bits
  rw [busy_iff_ticksLeft_pos (by rw [ticks_build]; exact hreset) (by rw [ticks_build]; exact ticks_inv hlegal hseq n),
    ticks_ticksLeft hlegal hseq, ticksLeft_load hs, Nat.sub_pos_iff_lt]

end Sys2Proof.Machine
end

section
/-! The PixelBuffer commands (R130 to R133): what SET, GET and FILL answer on a constructed strip, and the entries a strip reads after them. -/
namespace Sys2Proof.Machine

/-! ## The entries of a strip -/

/-- A canonical memory lists no index from n on. -/
theorem memory_read_beyond {init : Nat → Color} {n : Nat} {m : Memory} (hm : Memory.wf init n m = true) {i : Nat} (hi : n ≤ i) :
    Memory.read init m i = init i :=
  memory_read_of_notMem fun c hc => by
    obtain ⟨hlt, -⟩ := (memory_mem_iff hm i c).1 hc
    omega

theorem strip_read_write {b : Build} {p : Strip} (hp : p.Inv b) (i : Nat) (c : Color) (j : Nat) :
    (p.write b i c).read b j = if j = i then c else p.read b j := by
  obtain ⟨-, -, hwf⟩ := hp
  exact memory_read_write i c j hwf

/-- FILL drops what was listed from N on, and a canonical strip lists nothing there. -/
theorem strip_read_fillWith {b : Build} {p : Strip} (hp : p.Inv b) (c : Color) (j : Nat) :
    (p.fillWith b c).read b j = if j < p.ledCount.toNat then c else p.read b j := by
  obtain ⟨-, -, hwf⟩ := hp
  refine (memory_read_fill c j).trans (ite_congr rfl (fun _ => rfl) fun hj => ?_)
  exact (memory_read_beyond hwf (Nat.le_of_not_lt hj)).symm

/-! ## The commands on a constructed strip -/

section
variable {s : State} {p : Strip} {index : Int}

theorem exec_set (index : Int) (color : Color) (hi : s.issuer = .host) (hl : s.life = .ready p) :
    exec (.set index color) s = (indexInRange index p.ledCount).elim (raise (.indexOutOfRange index) s)
      fun i => respond .ok { s with life := .ready (p.write s.build i color) } := by
  refine (fromHost_of_host _ hi).trans ((whenReady_of_ready _ hl).trans ?_)
  cases indexInRange index p.ledCount <;> rfl

theorem exec_get (index : Int) (hi : s.issuer = .host) (hl : s.life = .ready p) :
    exec (.get index) s = (indexInRange index p.ledCount).elim (raise (.indexOutOfRange index) s)
      fun i => respond (.color (p.read s.build i)) s := by
  refine (fromHost_of_host _ hi).trans ((whenReady_of_ready _ hl).trans ?_)
  cases indexInRange index p.ledCount <;> rfl

/-- FILL has no error on a constructed strip (R132). -/
theorem exec_fill (color : Color) (hi : s.issuer = .host) (hl : s.life = .ready p) :
    exec (.fill color) s = .next { s with life := .ready (p.fillWith s.build color), rsp := some .ok } :=
  (fromHost_of_host _ hi).trans (whenReady_of_ready _ hl)

theorem exec_clear_eq_fill (s : State) : exec .clear s = exec (.fill black) s := rfl

/-- An index in [0, N) is the entry's own number (R44, R46). -/
theorem indexInRange_toNat {n : U32} (h0 : 0 ≤ index) (hn : index < n.toNat) : indexInRange index n = some index.toNat :=
  indexInRange_eq_some.2 (by omega)

theorem exec_set_inRange (color : Color) (hi : s.issuer = .host) (hl : s.life = .ready p) (h0 : 0 ≤ index)
    (hn : index < p.ledCount.toNat) : exec (.set index color) s =
      .next { s with life := .ready (p.write s.build index.toNat color), rsp := some .ok } := by
  rw [exec_set index color hi hl, indexInRange_toNat h0 hn, Option.elim_some, respond_eq]

theorem exec_set_outOfRange (color : Color) (hi : s.issuer = .host) (hl : s.life = .ready p)
    (h : index < 0 ∨ (p.ledCount.toNat : Int) ≤ index) : exec (.set index color) s = raise (.indexOutOfRange index) s := by
  rw [exec_set index color hi hl, indexInRange_eq_none.2 h, Option.elim_none]

theorem exec_get_inRange (hi : s.issuer = .host) (hl : s.life = .ready p) (h0 : 0 ≤ index) (hn : index < p.ledCount.toNat) :
    exec (.get index) s = .next { s with rsp := some (.color (p.read s.build index.toNat)) } := by
  rw [exec_get index hi hl, indexInRange_toNat h0 hn, Option.elim_some, respond_eq]

theorem exec_get_outOfRange (hi : s.issuer = .host) (hl : s.life = .ready p)
    (h : index < 0 ∨ (p.ledCount.toNat : Int) ≤ index) : exec (.get index) s = raise (.indexOutOfRange index) s := by
  rw [exec_get index hi hl, indexInRange_eq_none.2 h, Option.elim_none]

end

/-! ## The obligations -/

/-- Settles O10: the strip after SET is the strip with one entry written, and a canonical one reads the Color there and as before elsewhere. -/
theorem setWritesExactlyItsEntry : Obligations.SetWritesExactlyItsEntry := by
  intro s p index color hi hl hinv h0 hn
  refine ⟨_, exec_set_inRange color hi hl h0 hn, rfl, rfl, rfl, ?written, fun j hj => ?others⟩
  case written => rw [strip_read_write hinv, if_pos rfl]
  case others => rw [strip_read_write hinv, if_neg hj]

/-- Settles O11: the bounds check comes before anything else SET or GET does. -/
theorem indexOutsideTheBufferErrs : Obligations.IndexOutsideTheBufferErrs := by
  intro s p index color hi hl h
  exact ⟨(exec_set_outOfRange color hi hl h).trans (raise_eq _ s), (exec_get_outOfRange hi hl h).trans (raise_eq _ s)⟩

/-- Settles O12: past the bounds check GET only responds. -/
theorem getRespondsTheEntry : Obligations.GetRespondsTheEntry := fun _ _ _ => exec_get_inRange

/-- Settles O13: the strip after FILL is the strip filled, and a canonical one reads the Color below N and PB_INIT, as before, from N on. -/
theorem fillWritesEveryEntry : Obligations.FillWritesEveryEntry := by
  intro s p color hi hl hinv
  refine ⟨_, exec_fill color hi hl, rfl, rfl, rfl, fun i hlt => ?inside, fun j hge => ?beyond⟩
  case inside => rw [strip_read_fillWith hinv, if_pos hlt]
  case beyond => rw [strip_read_fillWith hinv, if_neg (Nat.not_lt.2 hge)]

/-- Settles O14: CLEAR's meaning is that of FILL at BLACK, so O13 says what it leaves. -/
theorem clearIsFillWithBlack : Obligations.ClearIsFillWithBlack :=
  ⟨exec_clear_eq_fill, fun s p hi hl hinv => fillWritesEveryEntry s p black hi hl hinv⟩

end Sys2Proof.Machine
end

section
/-! The host's software: the colours of a fade (R143, R144), a fade as the host's moves (R145, R146), and the wheel's stated values (R150). -/
namespace Sys2Proof.Machine

/-! ## The colours of a fade -/

/-- A truncated quotient, taken no more often than its divisor says, stays between 0 and the dividend (R144). -/
theorem mul_tdiv_between (d : Int) {k n : Nat} (hk : k ≤ n) : min 0 d ≤ k * d.tdiv n ∧ k * d.tdiv n ≤ max 0 d := by
  have magnitude (m : Nat) : k * (m / n) ≤ m := (Nat.mul_le_mul_right _ hk).trans (Nat.mul_div_le m n)
  obtain ⟨m, rfl | rfl⟩ := d.eq_nat_or_neg
  case inl =>
    rw [← Int.ofNat_tdiv, ← Int.natCast_mul]
    have := magnitude m
    omega
  case inr =>
    rw [Int.neg_tdiv, ← Int.ofNat_tdiv, Int.mul_neg, ← Int.natCast_mul]
    have := magnitude m
    omega

section
variable {steps k : Nat}

/-- A fade's channel lies between its ends as an integer, before it is written in 8 bits. -/
theorem fadeChannel_between (start stop : Channel) (hk : k ≤ steps) :
    (min start.toNat stop.toNat : Int) ≤ fadeChannel start stop steps k ∧
      fadeChannel start stop steps k ≤ max start.toNat stop.toNat := by
  obtain ⟨lower, upper⟩ := mul_tdiv_between ((stop.toNat : Int) - start.toNat) hk
  unfold fadeChannel fadeDelta
  omega

/-- So it is a legal channel value, which its 8 bits hold exactly. -/
theorem toNat_ofInt_fadeChannel (start stop : Channel) (hk : k ≤ steps) :
    ((BitVec.ofInt 8 (fadeChannel start stop steps k)).toNat : Int) = fadeChannel start stop steps k := by
  obtain ⟨lower, upper⟩ := fadeChannel_between start stop hk
  have := start.isLt
  have := stop.isLt
  rw [BitVec.toNat_ofInt]
  omega

theorem toNat_ofInt_fadeChannel_between (start stop : Channel) (hk : k ≤ steps) :
    min start.toNat stop.toNat ≤ (BitVec.ofInt 8 (fadeChannel start stop steps k)).toNat ∧
      (BitVec.ofInt 8 (fadeChannel start stop steps k)).toNat ≤ max start.toNat stop.toNat := by
  have between := fadeChannel_between start stop hk
  rw [← toNat_ofInt_fadeChannel start stop hk] at between
  exact_mod_cast between

end

/-! ## A fade as moves -/

theorem fadeIn_of_pos (start stop : Color) {steps : Nat} (delay : Nat) (h : 0 < steps) :
    fadeIn start stop steps delay =
      some ((List.range steps).flatMap fun j => showColor delay (fadeColor start stop steps (j + 1))) := by
  rw [fadeIn, if_neg h.ne', fadeColors, List.flatMap_map]

theorem fadeOut_of_fadeIn {start stop : Color} {steps delay : Nat} {moves : List Move}
    (h : fadeIn start stop steps delay = some moves) :
    fadeOut start stop steps delay = some (moves ++ showColor delay black) := by
  rw [fadeOut, h, Option.map_some]

/-! ## The wheel -/

theorem wheel_outside {p : Int} (h : p < 0 ∨ 255 < p) : wheel p = black := if_pos h

/-! ## The obligations -/

/-- Settles O57: no channel of a fade passes either of its ends, so 8 bits hold it and its value is R144's integer. -/
theorem fadeColoursStayBetweenTheEnds : Obligations.FadeColoursStayBetweenTheEnds := by
  intro start stop steps k _ hk
  obtain ⟨rLower, rUpper⟩ := toNat_ofInt_fadeChannel_between start.r stop.r hk
  obtain ⟨gLower, gUpper⟩ := toNat_ofInt_fadeChannel_between start.g stop.g hk
  obtain ⟨bLower, bUpper⟩ := toNat_ofInt_fadeChannel_between start.b stop.b hk
  exact ⟨toNat_ofInt_fadeChannel start.r stop.r hk, toNat_ofInt_fadeChannel start.g stop.g hk,
    toNat_ofInt_fadeChannel start.b stop.b hk, rLower, rUpper, gLower, gUpper, bLower, bUpper⟩

/-- Settles O58: a fade of some steps is its colours shown in order, and fade_out shows BLACK after the moves of fade_in. -/
theorem fadesAsCommands : Obligations.FadesAsCommands := by
  intro start stop steps delay h
  have shown := fadeIn_of_pos start stop delay h
  exact ⟨_, shown, rfl, fadeOut_of_fadeIn shown⟩

/-- Settles O59: both stated positions are evaluated, and the check for a position outside the range comes first. -/
theorem wheelStatedValues : Obligations.WheelStatedValues :=
  ⟨by decide, by decide, fun _ => wheel_outside⟩

end Sys2Proof.Machine
end

section
/-! A host that waits for BUSY = 0 always proceeds (R182): under WAIT_IDLE each step is a tick as long as a tick is left (R115, R116). -/
namespace Sys2Proof.Machine

@[simp] theorem ticks_schedule (n : Nat) (s : State) : (ticks n s).schedule = s.schedule := by rw [ticks_eq]

section
variable {s : State}

/-- While ticks are left, BUSY is 1 and a step under WAIT_IDLE is a tick (R74). -/
theorem step_waitIdle_tick {rest : List Move} (hlegal : s.build.legal = true) (hseq : s.seq.Inv s.build)
    (hs : s.schedule = .waitIdle :: rest) (hleft : 0 < s.ticksLeft) : step s = .next (tick s) := by
  obtain ⟨-, -, -, hreset, -⟩ := build_legal hlegal
  rw [step_waitIdle hs, if_pos ((busy_iff_ticksLeft_pos hreset hseq).2 hleft)]

/-- So the steps up to the last tick left are that many ticks. -/
theorem run_waitIdle {rest : List Move} {n : Nat} (hlegal : s.build.legal = true) (hseq : s.seq.Inv s.build)
    (hs : s.schedule = .waitIdle :: rest) (hn : n ≤ s.ticksLeft) :
    Host.Core.run Sys2Proof.core n s = .next (ticks n s) := by
  induction n generalizing s with
  | zero => rfl
  | succ n ih =>
    rw [core_run_succ n (step_waitIdle_tick hlegal hseq hs (Nat.zero_lt_of_lt hn))]
    exact ih (s := tick s) hlegal (tick_inv hlegal hseq) hs (by rw [tick_ticksLeft hseq]; omega)

/-- No tick is left after as many as there were, and BUSY is 0. -/
theorem ticks_ticksLeft_not_busy (hlegal : s.build.legal = true) (hseq : s.seq.Inv s.build) :
    (ticks s.ticksLeft s).busy = false := by
  obtain ⟨-, -, -, hreset, -⟩ := build_legal hlegal
  have hbusy := busy_iff_ticksLeft_pos (s := ticks s.ticksLeft s) (by rw [ticks_build]; exact hreset)
    (by rw [ticks_build]; exact ticks_inv hlegal hseq s.ticksLeft)
  rw [ticks_ticksLeft hlegal hseq, Nat.sub_self] at hbusy
  exact Bool.eq_false_iff.2 (mt hbusy.1 (lt_irrefl 0))

end

/-- Settles O33: the run is `ticksLeft` ticks, which end BUSY, leave the moves to come, and put a level each on the record. -/
theorem waitIdleEnds : Obligations.WaitIdleEnds := by
  intro s rest hinv hs
  obtain ⟨hlegal, hseq, -⟩ := hinv
  refine ⟨ticks s.ticksLeft s, run_waitIdle hlegal hseq hs le_rfl, ticks_ticksLeft_not_busy hlegal hseq, ?schedule, ?record⟩
  case schedule => rw [ticks_schedule, hs]
  case record => rw [ticks_trace, List.length_append, levels_length]

end Sys2Proof.Machine
end

section
/-! The outcomes of a command (R182): what is refused (R181), that the rest completes, which errors it can answer (R170, R171), and that an
error changes nothing (R176). -/
namespace Sys2Proof.Machine

/-! ## Refusals -/

section
variable {s : State}

theorem fromHost_of_secondHost (run : Result) (hi : s.issuer = .secondHost) : fromHost s run = .refused .secondHost := by
  simp [fromHost, hi]

theorem fromHost_of_frontEnd (run : Result) (hi : s.issuer = .frontEnd) : fromHost s run = .refused .frontEnd := by
  simp [fromHost, hi]

theorem fromFrontEnd_of_host (run : Result) (hi : s.issuer = .host) : fromFrontEnd s run = .refused .sendFromHost := by
  simp [fromFrontEnd, hi]

theorem fromFrontEnd_of_secondHost (run : Result) (hi : s.issuer = .secondHost) :
    fromFrontEnd s run = .refused .secondHost := by
  simp [fromFrontEnd, hi]

theorem whenReady_of_unconfigured (run : Strip → Result) (hl : s.life = .unconfigured) :
    whenReady s run = .refused .unconfigured := by
  simp [whenReady, hl]

theorem whenUnconfigured_of_ready {p : Strip} (run : Result) (hl : s.life = .ready p) :
    whenUnconfigured s run = .refused .alreadyConfigured := by
  simp [whenUnconfigured, hl]

end

/-- A command that is neither CONFIGURE nor SEND is the host's, on a constructed strip (R52, R181 (a)). -/
theorem exec_eq_fromHost_whenReady {i : Instr} (hf : i.format = .cmd) (hnc : ∀ n pin brt, i ≠ .configure n pin brt)
    (hns : ∀ bits, i ≠ .send bits) (s : State) : ∃ run, exec i s = fromHost s (whenReady s run) := by
  cases i with
  | configure n pin brt => exact absurd rfl (hnc n pin brt)
  | set index color => exact ⟨_, rfl⟩
  | get index => exact ⟨_, rfl⟩
  | fill color => exact ⟨_, rfl⟩
  | clear => exact ⟨_, rfl⟩
  | flush => exact ⟨_, rfl⟩
  | encode buffer brt => exact ⟨_, rfl⟩
  | send bits => exact absurd rfl (hns bits)
  | word24 w => cases hf
  | sym0 => cases hf
  | sym1 => cases hf
  | reset => cases hf

/-- A second host's command is refused, SEND included (R181 (d)). -/
theorem exec_secondHost {i : Instr} {s : State} (hf : i.format = .cmd) (hi : s.issuer = .secondHost) :
    exec i s = .refused .secondHost := by
  by_cases hsend : ∃ bits, i = .send bits
  · obtain ⟨bits, rfl⟩ := hsend
    exact fromFrontEnd_of_secondHost _ hi
  · obtain ⟨run, hrun⟩ := exec_eq_fromHost hf (not_exists.1 hsend) s
    exact hrun.trans (fromHost_of_secondHost run hi)

/-- Settles O40: the issuer is looked at first, and then LIFE. -/
theorem refusedCommands : Obligations.RefusedCommands := by
  intro s i hf
  refine ⟨exec_secondHost hf, fun bits hi => fromFrontEnd_of_host _ hi, fun hi hns => ?frontEnd,
    fun hi hl hnc hns => ?unconfigured, fun bits hi hl => ?send, fun n pin brt p hi hl => ?ready⟩
  case frontEnd =>
    obtain ⟨run, hrun⟩ := exec_eq_fromHost hf hns s
    exact hrun.trans (fromHost_of_frontEnd run hi)
  case unconfigured =>
    obtain ⟨run, hrun⟩ := exec_eq_fromHost_whenReady hf hnc hns s
    exact hrun.trans ((fromHost_of_host _ hi).trans (whenReady_of_unconfigured run hl))
  case send => exact (fromFrontEnd_of_frontEnd _ hi).trans (whenReady_of_unconfigured _ hl)
  case ready => exact (fromHost_of_host _ hi).trans (whenUnconfigured_of_ready _ hl)

/-! ## Completion -/

theorem sendBits_completes (bits : List Bool) (s : State) : ∃ t, sendBits bits s = .next t := by
  obtain ⟨-, e⟩ | ⟨-, -, e⟩ | ⟨-, -, e⟩ := sendBits_cases bits s
  · exact ⟨_, e.trans (raise_eq _ s)⟩
  · exact ⟨_, e.trans (raise_eq _ s)⟩
  · exact ⟨_, e⟩

theorem encodeAndSend_completes (buffer : List Color) (brt : F32) (p : Strip) (s : State) :
    ∃ t, encodeAndSend buffer brt p s = .next t := by
  obtain ⟨-, e⟩ | ⟨-, -, e⟩ | ⟨-, -, e⟩ := encodeAndSend_cases buffer brt p s
  · exact ⟨_, e.trans (raise_eq _ s)⟩
  · exact ⟨_, e.trans (raise_eq _ s)⟩
  · exact e ▸ sendBits_completes _ s

/-- A command of the host on a constructed strip succeeds or errs (R182). -/
theorem exec_ready_completes {i : Instr} {s : State} {p : Strip} (hi : s.issuer = .host) (hl : s.life = .ready p)
    (hf : i.format = .cmd) (hnc : ∀ n pin brt, i ≠ .configure n pin brt) (hns : ∀ bits, i ≠ .send bits) :
    ∃ t, exec i s = .next t := by
  cases i with
  | configure n pin brt => exact absurd rfl (hnc n pin brt)
  | set index color =>
    rw [exec_set index color hi hl]
    cases indexInRange index p.ledCount <;> exact ⟨_, rfl⟩
  | get index =>
    rw [exec_get index hi hl]
    cases indexInRange index p.ledCount <;> exact ⟨_, rfl⟩
  | fill color => exact ⟨_, exec_fill color hi hl⟩
  | clear => exact ⟨_, exec_fill black hi hl⟩
  | flush =>
    rw [exec_flush_eq_encode hi hl, exec_encode _ _ hi hl]
    exact encodeAndSend_completes ..
  | encode buffer brt =>
    rw [exec_encode buffer brt hi hl]
    exact encodeAndSend_completes ..
  | send bits => exact absurd rfl (hns bits)
  | word24 w => cases hf
  | sym0 => cases hf
  | sym1 => cases hf
  | reset => cases hf

/-- A command raises an error, or answers OK or a Color; either way it puts nothing on the record of the line (R176, R201). -/
theorem Did.raised_or_answered {i : Instr} {s t : State} (h : Did i s t) (hf : i.format = .cmd) :
    (∃ e, t = { s with esr := s.esr ||| e.esrBit, rsp := some (.error e) }) ∨
      (t.trace = s.trace ∧ ∃ r, t.rsp = some r ∧ ∀ e, r ≠ .error e) := by
  cases h with
  | raised e _ ht => exact .inl ⟨e, ht⟩
  | responded c _ ht => rw [ht]; exact .inr ⟨rfl, _, rfl, nofun⟩
  | constructed p _ hl hn hb hp ht => rw [ht]; exact .inr ⟨rfl, _, rfl, nofun⟩
  | wrote p k c _ hl hk ht => rw [ht]; exact .inr ⟨rfl, _, rfl, nofun⟩
  | filled p c _ hl ht => rw [ht]; exact .inr ⟨rfl, _, rfl, nofun⟩
  | sent bits hi hp ht => rw [ht]; exact .inr ⟨rfl, _, rfl, nofun⟩
  | emitted bits rest hw hb hp hq ht => exact absurd hf hw
  | held hi hp ht => subst hi; cases hf

/-- Settles O41: such a command answers a next state, and no command writes the record or the build. -/
theorem hostCommandsAlwaysComplete : Obligations.HostCommandsAlwaysComplete := by
  intro s p i hi hl hf hnc hns
  obtain ⟨t, ht⟩ := exec_ready_completes hi hl hf hnc hns
  have did := exec_did ht
  obtain ⟨e, rfl⟩ | ⟨htrace, r, hr, -⟩ := did.raised_or_answered hf
  · exact ⟨_, ht, nofun, rfl, rfl⟩
  · exact ⟨t, ht, hr ▸ nofun, htrace, did.build_eq⟩

/-! ## Errors -/

/-- Settles O42: a command that does anything but raise answers OK or a Color. -/
theorem errorsChangeOnlyEsrAndTheResponse : Obligations.ErrorsChangeOnlyEsrAndTheResponse := by
  intro s t i e hf h herr
  obtain ⟨e', rfl⟩ | ⟨-, r, hr, hne⟩ := (exec_did h).raised_or_answered hf
  · obtain rfl : e' = e := by simpa using herr
    rfl
  · exact absurd (Option.some.inj (hr.symm.trans herr)) (hne e)

/-- The command ends with this error as its response (R176). -/
def Raises (r : Result) (e : BlockError) : Prop := ∃ t, r = .next t ∧ t.rsp = some (.error e)

section
variable {s : State} {e : BlockError}

@[simp] theorem raises_next_iff {t : State} : Raises (.next t) e ↔ t.rsp = some (.error e) := by simp [Raises]

theorem raises_raise {e' : BlockError} (h : Raises (raise e' s) e) : e = e' := by
  simpa [eq_comm] using h

theorem raises_sendBits {bits : List Bool} (h : Raises (sendBits bits s) e) :
    e = .hardware .busy ∨ e = .hardware .unavailable := by
  obtain ⟨-, outcome⟩ | ⟨-, -, outcome⟩ | ⟨-, -, outcome⟩ := sendBits_cases bits s <;> rw [outcome] at h
  · exact .inl (raises_raise h)
  · exact .inr (raises_raise h)
  · simp at h

theorem raises_encodeAndSend {buffer : List Color} {brt : F32} {p : Strip} (h : Raises (encodeAndSend buffer brt p s) e) :
    (buffer.length ≠ p.ledCount.toNat ∧ e = .configuration (.length buffer.length p.ledCount)) ∨
      (validBrt brt = false ∧ e = .configuration (.brightness brt)) ∨ e = .hardware .busy ∨ e = .hardware .unavailable := by
  obtain ⟨hlen, outcome⟩ | ⟨-, hb, outcome⟩ | ⟨-, -, outcome⟩ := encodeAndSend_cases buffer brt p s <;> rw [outcome] at h
  · exact .inl ⟨hlen, raises_raise h⟩
  · exact .inr (.inl ⟨hb, raises_raise h⟩)
  · exact .inr (.inr (raises_sendBits h))

/-- SET and GET share their one check (R130, R131). -/
theorem raises_indexed {index : Int} {n : U32} {found : Nat → Result} (hfound : ∀ k, ¬ Raises (found k) e)
    (h : Raises ((indexInRange index n).elim (raise (.indexOutOfRange index) s) found) e) : e = .indexOutOfRange index := by
  cases hk : indexInRange index n with
  | none => rw [hk] at h; exact raises_raise h
  | some k => rw [hk] at h; exact absurd h (hfound k)

theorem raises_configure {n : Option U32} {pin : Option PinId} {brt : Option F32} (h : Raises (exec (.configure n pin brt) s) e) :
    e = .configuration (.ledCount 0#32) ∨ e = .configuration (.brightness (optionOr s.build.brtDefault brt)) := by
  obtain ⟨t, ht, -⟩ := id h
  obtain ⟨hi, hrun⟩ := fromHost_next ht
  obtain ⟨hl, -⟩ := whenUnconfigured_next hrun
  by_cases hn : optionOr 16#32 n = 0#32
  · rw [exec_configure_ledCount hi hl hn] at h
    exact .inl (raises_raise h)
  · cases hb : validBrt (optionOr s.build.brtDefault brt) with
    | false => rw [exec_configure_brightness hi hl hn hb] at h; exact .inr (raises_raise h)
    | true => rw [exec_configure_legal hi hl hn hb] at h; simp at h

/-- A command under `fromHost` and `whenReady` that ends was the host's, on a constructed strip. -/
theorem raises_fromHost_whenReady {run : Strip → Result} (h : Raises (fromHost s (whenReady s run)) e) :
    ∃ p, s.issuer = .host ∧ s.life = .ready p := by
  obtain ⟨t, ht, -⟩ := h
  obtain ⟨hi, hrun⟩ := fromHost_next ht
  obtain ⟨p, hl, -⟩ := whenReady_next hrun
  exact ⟨p, hi, hl⟩

theorem raises_set {index : Int} {color : Color} (h : Raises (exec (.set index color) s) e) : e = .indexOutOfRange index := by
  obtain ⟨p, hi, hl⟩ := raises_fromHost_whenReady h
  rw [exec_set index color hi hl] at h
  exact raises_indexed (fun _ => by simp) h

theorem raises_get {index : Int} (h : Raises (exec (.get index) s) e) : e = .indexOutOfRange index := by
  obtain ⟨p, hi, hl⟩ := raises_fromHost_whenReady h
  rw [exec_get index hi hl] at h
  exact raises_indexed (fun _ => by simp) h

theorem not_raises_fill {color : Color} : ¬ Raises (exec (.fill color) s) e := by
  intro h
  obtain ⟨p, hi, hl⟩ := raises_fromHost_whenReady h
  rw [exec_fill color hi hl] at h
  simp at h

theorem raises_encode {buffer : List Color} {brt : F32} (h : Raises (exec (.encode buffer brt) s) e) :
    (∃ p, s.life = .ready p ∧ e = .configuration (.length buffer.length p.ledCount)) ∨
      e = .configuration (.brightness brt) ∨ e = .hardware .busy ∨ e = .hardware .unavailable := by
  obtain ⟨p, hi, hl⟩ := raises_fromHost_whenReady h
  rw [exec_encode buffer brt hi hl] at h
  obtain ⟨-, he⟩ | ⟨-, he⟩ | he := raises_encodeAndSend h
  · exact .inl ⟨p, hl, he⟩
  · exact .inr (.inl he)
  · exact .inr (.inr he)

/-- A legal strip has N Colors and a legal brightness, so FLUSH passes ENCODE's own checks (R81, R96). -/
theorem raises_flush (hlife : s.life.Inv s.build) (h : Raises (exec .flush s) e) :
    e = .hardware .busy ∨ e = .hardware .unavailable := by
  obtain ⟨p, hi, hl⟩ := raises_fromHost_whenReady h
  rw [hl] at hlife
  obtain ⟨-, hb, -⟩ := hlife
  rw [exec_flush_eq_encode hi hl, exec_encode_legal hi hl (strip_colors_length _ p) hb] at h
  exact raises_sendBits h

theorem raises_send {bits : List Bool} (h : Raises (exec (.send bits) s) e) :
    e = .hardware .busy ∨ e = .hardware .unavailable := by
  obtain ⟨t, ht, -⟩ := id h
  obtain ⟨hi, hrun⟩ := fromFrontEnd_next ht
  obtain ⟨p, hl, -⟩ := whenReady_next hrun
  rw [exec_send bits hi hl] at h
  exact raises_sendBits h

end

/-- Settles O43, command by command; the invariant is FLUSH's. -/
theorem whichCommandRaisesWhat : Obligations.WhichCommandRaisesWhat := by
  intro s t i e hinv hf h herr
  obtain ⟨-, -, hlife⟩ := hinv
  have raises : Raises (exec i s) e := ⟨t, h, herr⟩
  cases i with
  | configure n pin brt => exact .inl ⟨n, pin, brt, rfl, raises_configure raises⟩
  | set index color => exact .inr (.inl ⟨index, color, rfl, raises_set raises⟩)
  | get index => exact .inr (.inr (.inl ⟨index, rfl, raises_get raises⟩))
  | fill color => exact absurd raises not_raises_fill
  | clear => exact absurd raises (not_raises_fill (color := black))
  | encode buffer brt => exact .inr (.inr (.inr (.inl ⟨buffer, brt, rfl, raises_encode raises⟩)))
  | flush => exact .inr (.inr (.inr (.inr (.inl ⟨rfl, raises_flush hlife raises⟩))))
  | send bits => exact .inr (.inr (.inr (.inr (.inr ⟨bits, rfl, raises_send raises⟩))))
  | word24 w => cases hf
  | sym0 => cases hf
  | sym1 => cases hf
  | reset => cases hf

end Sys2Proof.Machine
end

section
/-! The reset and the hazards (R200, R202, R210, R213): a reset cuts whatever was being sent, and a command never does. -/
namespace Sys2Proof.Machine

/-- With the sequencer at work a command cannot load it, and only wire instructions run it (R121, R210). -/
theorem Did.line_eq_of_busy {i : Instr} {s t : State} (h : Did i s t) (hf : i.format = .cmd) (hbusy : s.busy = true) :
    t.seq = s.seq ∧ t.trace = s.trace := by
  cases h with
  | raised e _ ht => rw [ht]; exact ⟨rfl, rfl⟩
  | responded c _ ht => rw [ht]; exact ⟨rfl, rfl⟩
  | constructed p _ hl hn hb hp ht => rw [ht]; exact ⟨rfl, rfl⟩
  | wrote p k c _ hl hk ht => rw [ht]; exact ⟨rfl, rfl⟩
  | filled p c _ hl ht => rw [ht]; exact ⟨rfl, rfl⟩
  | sent bits hi hp ht => exact absurd hp (busy_iff.1 hbusy)
  | emitted bits rest hw hb hp hq ht => exact absurd hf hw
  | held hi hp ht => subst hi; cases hf

/-- Settles O50: of the things an instruction does, only a wire pattern or a send from IDLE touches the sequencer or the record. -/
theorem commandsNeverTouchABusySequencer : Obligations.CommandsNeverTouchABusySequencer :=
  fun _ _ _ hf hbusy h => (exec_did h).line_eq_of_busy hf hbusy

/-- The reset sequencer drives the line low (R202). -/
@[simp] theorem resetBlock_dout (s : State) : (resetBlock s).dout = false := dout_of_ne_shift nofun

@[simp] theorem resetBlock_busy (s : State) : (resetBlock s).busy = false := rfl

/-- Settles O2: the step is the reset of the block, with the move spent. -/
theorem resetInAnyStateCutsTheFrame : Obligations.ResetInAnyStateCutsTheFrame := by
  intro s rest hs
  refine ⟨_, step_reset hs, resetBlock_life _, ?phase, ?txq, ?tck, ?hold, resetBlock_esr _, resetBlock_dout _, resetBlock_busy _,
    resetBlock_build _, resetBlock_periphAvail _, resetBlock_schedule _, resetBlock_trace _⟩
  all_goals rw [resetBlock_seq]; rfl

end Sys2Proof.Machine
end
